-- ==== Sys2Proof/Word.lean ====
section
/-! DEFINITION. Word.lean: the widths of rule R10 (00_scope.md) and of the command port, rule R51 (30_encoding.md). -/

namespace Sys2Proof

/-- A half-register or one byte of the AddressSpace (rules R10, R14). -/
abbrev Byte := BitVec 8

/-- A combined or address/index register, and the value operand of a named write (rules R10, R16, R18). -/
abbrev Word := BitVec 16

/-- A register selector, `cmd[20:16]` (rule R51). -/
abbrev Sel := BitVec 5

/-- One command word on `cmd[22:0]` (rule R51). -/
abbrev Cmd := BitVec 23

end Sys2Proof
end

