-- ==== Sys2Proof/Machine/Names.lean ====
section
/-! DEFINITION. Machine/Names.lean: the names of the block's storage elements (rules R13, R15, R18, R22), of its
operations (rule R52), and the inputs of one clock edge (rules R51, R64). -/

namespace Sys2Proof.Machine

/-- The four pairs of halves (rule R15). -/
inductive Pair where
  | A
  | B
  | C
  | D
  deriving DecidableEq, Repr, Inhabited

/-- Which half of a pair: `xH` or `xL` (rule R15). -/
inductive HalfKind where
  | high
  | low
  deriving DecidableEq, Repr, Inhabited

/-- The four address/index registers (rule R18). -/
inductive IndexReg where
  | SP
  | BP
  | DI
  | SI
  deriving DecidableEq, Repr, Inhabited

/-- The 16 register names (rule R13), by the write policy each selects (rules R3, R54). -/
inductive RegName where
  /-- AH, AL, BH, BL, CH, CL, DH, DL. -/
  | half (p : Pair) (k : HalfKind)
  /-- AX, BX, CX, DX. -/
  | combined (p : Pair)
  /-- SP, BP, DI, SI. -/
  | index (r : IndexReg)
  deriving DecidableEq, Repr, Inhabited

/-- The nine flags (rule R22). -/
inductive FlagName where
  | TF
  | DF
  | IF
  | OF
  | SF
  | ZF
  | AF
  | PF
  | CF
  deriving DecidableEq, Repr, Inhabited

/-- The grouping of the flags, "a name only" (rules R4, R23). -/
inductive FlagRole where
  | control
  | status
  deriving DecidableEq, Repr, Inhabited

/-- The four values of the `op` field (rule R52). -/
inductive Op where
  | idle
  | write
  | init
  | rsvd
  deriving DecidableEq, Repr, Inhabited

/-- What the host presents at one rising edge of `clk`: the level of `rst` and the word on `cmd` (rules R51, R64, R111). -/
structure Input where
  rst : Bool
  cmd : Cmd
  deriving DecidableEq, Repr, Inhabited

end Sys2Proof.Machine
end

