-- ==== Sys2Proof/Syntax.lean ====
section
/-! DEFINITION. Syntax.lean: the commands of the block, one constructor per row of opcode_table.json. A constructor
holds every field of its row that is not fixed by the row's match and mask, the ignored ones of rule R57 too, so that
an instruction and its command word say the same (log entry 10). -/

namespace Sys2Proof

/-- One command of the block (rules R52 and R53, opcode_table.json). -/
inductive Instr where
  /-- `IDLE`, op = 00; both fields are ignored (rule R85). -/
  | idle (sel : Sel) (v : Word)
  /-- `WRITE AH, v`, op = 01, sel = 0 (rule R66). -/
  | writeAH (v : Word)
  /-- `WRITE AL, v`, op = 01, sel = 1 (rule R67). -/
  | writeAL (v : Word)
  /-- `WRITE BH, v`, op = 01, sel = 2 (rule R68). -/
  | writeBH (v : Word)
  /-- `WRITE BL, v`, op = 01, sel = 3 (rule R69). -/
  | writeBL (v : Word)
  /-- `WRITE CH, v`, op = 01, sel = 4 (rule R70). -/
  | writeCH (v : Word)
  /-- `WRITE CL, v`, op = 01, sel = 5 (rule R71). -/
  | writeCL (v : Word)
  /-- `WRITE DH, v`, op = 01, sel = 6 (rule R72). -/
  | writeDH (v : Word)
  /-- `WRITE DL, v`, op = 01, sel = 7 (rule R73). -/
  | writeDL (v : Word)
  /-- `WRITE AX, v`, op = 01, sel = 8 (rule R76). -/
  | writeAX (v : Word)
  /-- `WRITE BX, v`, op = 01, sel = 9 (rule R77). -/
  | writeBX (v : Word)
  /-- `WRITE CX, v`, op = 01, sel = 10 (rule R78). -/
  | writeCX (v : Word)
  /-- `WRITE DX, v`, op = 01, sel = 11 (rule R79). -/
  | writeDX (v : Word)
  /-- `WRITE SP, v`, op = 01, sel = 12 (rule R81). -/
  | writeSP (v : Word)
  /-- `WRITE BP, v`, op = 01, sel = 13 (rule R82). -/
  | writeBP (v : Word)
  /-- `WRITE DI, v`, op = 01, sel = 14 (rule R83). -/
  | writeDI (v : Word)
  /-- `WRITE SI, v`, op = 01, sel = 15 (rule R84). -/
  | writeSI (v : Word)
  /-- `WRITE ?sel, v`, op = 01, sel in 16..31; `sel[3:0]` and `v` are ignored (rule R86). -/
  | writeUnknown (sel : Sel) (v : Word)
  /-- `INIT`, op = 10; both fields are ignored (rule R88). -/
  | init (sel : Sel) (v : Word)
  /-- `RSVD`, op = 11; both fields are ignored (rule R89). -/
  | rsvd (sel : Sel) (v : Word)
  deriving DecidableEq, Repr

end Sys2Proof
end

