-- ==== Sys2Proof/WellFormed.lean ====
section
/-! DEFINITION. WellFormed.lean: which terms of Instr stand for a command word. -/

namespace Sys2Proof

/-- The one check: the selector of an unrecognised-name write has `sel[4] = 1`, a code in 16..31 (rules R53, R55).
Every other field takes every value of its width (rule R92). -/
def Instr.wellFormed : Instr → Bool
  | .idle _ _ => true
  | .writeAH _ => true
  | .writeAL _ => true
  | .writeBH _ => true
  | .writeBL _ => true
  | .writeCH _ => true
  | .writeCL _ => true
  | .writeDH _ => true
  | .writeDL _ => true
  | .writeAX _ => true
  | .writeBX _ => true
  | .writeCX _ => true
  | .writeDX _ => true
  | .writeSP _ => true
  | .writeBP _ => true
  | .writeDI _ => true
  | .writeSI _ => true
  | .writeUnknown sel _ => sel.getLsbD 4
  | .init _ _ => true
  | .rsvd _ _ => true

/-- The instruction stands for a command word. -/
abbrev Instr.WellFormed (i : Instr) : Prop := i.wellFormed = true

end Sys2Proof
end

