-- ==== Sys2Proof/Decode.lean ====
section
/-! DEFINITION. Decode.lean: the decoder (rules R51 to R58) and the encoder, both from the tables of 30_encoding.md,
and the match and mask of every row of opcode_table.json. -/

namespace Sys2Proof

open Sys2Proof.Machine

/-! The fields of a command word (rule R51). -/

/-- `op = cmd[22:21]`. -/
def opField (w : Cmd) : BitVec 2 := w.extractLsb' 21 2

/-- `sel = cmd[20:16]`. -/
def selField (w : Cmd) : Sel := w.extractLsb' 16 5

/-- `value = cmd[15:0]`, taken whole, with no extension, scaling or shifting (rule R56). -/
def valueField (w : Cmd) : Word := w.extractLsb' 0 16

/-- The command word of three fields: `op * 2^21 + sel * 2^16 + value` (rule R51). -/
def cmdWord (op : BitVec 2) (sel : Sel) (v : Word) : Cmd := op ++ sel ++ v

/-! The operation field (rule R52). -/

def opOfBits (b : BitVec 2) : Op :=
  match b.toNat with
  | 0 => .idle
  | 1 => .write
  | 2 => .init
  | _ => .rsvd

def opBits : Op → BitVec 2
  | .idle => 0b00
  | .write => 0b01
  | .init => 0b10
  | .rsvd => 0b11

/-! The selector (rule R53). -/

/-- The selector code of a register name. -/
def selOfReg : RegName → Sel
  | .half .A .high => 0
  | .half .A .low => 1
  | .half .B .high => 2
  | .half .B .low => 3
  | .half .C .high => 4
  | .half .C .low => 5
  | .half .D .high => 6
  | .half .D .low => 7
  | .combined .A => 8
  | .combined .B => 9
  | .combined .C => 10
  | .combined .D => 11
  | .index .SP => 12
  | .index .BP => 13
  | .index .DI => 14
  | .index .SI => 15

/-- The register name of a selector code, none for the unrecognised codes 16 to 31 (rules R53, R55). -/
def regOfSel (sel : Sel) : Option RegName :=
  match sel.toNat with
  | 0 => some (.half .A .high)
  | 1 => some (.half .A .low)
  | 2 => some (.half .B .high)
  | 3 => some (.half .B .low)
  | 4 => some (.half .C .high)
  | 5 => some (.half .C .low)
  | 6 => some (.half .D .high)
  | 7 => some (.half .D .low)
  | 8 => some (.combined .A)
  | 9 => some (.combined .B)
  | 10 => some (.combined .C)
  | 11 => some (.combined .D)
  | 12 => some (.index .SP)
  | 13 => some (.index .BP)
  | 14 => some (.index .DI)
  | 15 => some (.index .SI)
  | _ => none

/-- The named write of a register name, as an instruction (opcode_table.json, rows WRITE_AH to WRITE_SI). -/
def writeOf : RegName → Word → Instr
  | .half .A .high, v => .writeAH v
  | .half .A .low, v => .writeAL v
  | .half .B .high, v => .writeBH v
  | .half .B .low, v => .writeBL v
  | .half .C .high, v => .writeCH v
  | .half .C .low, v => .writeCL v
  | .half .D .high, v => .writeDH v
  | .half .D .low, v => .writeDL v
  | .combined .A, v => .writeAX v
  | .combined .B, v => .writeBX v
  | .combined .C, v => .writeCX v
  | .combined .D, v => .writeDX v
  | .index .SP, v => .writeSP v
  | .index .BP, v => .writeBP v
  | .index .DI, v => .writeDI v
  | .index .SI, v => .writeSI v

/-- Decode of the WRITE operation: a named write, or the unrecognised-name write (rule R58). -/
def decodeWrite (sel : Sel) (v : Word) : Instr :=
  match regOfSel sel with
  | some r => writeOf r v
  | none => .writeUnknown sel v

/-- Decode, "a total function of the 23-bit word" (rule R58). -/
def decode (w : Cmd) : Instr :=
  match opOfBits (opField w) with
  | .idle => .idle (selField w) (valueField w)
  | .write => decodeWrite (selField w) (valueField w)
  | .init => .init (selField w) (valueField w)
  | .rsvd => .rsvd (selField w) (valueField w)

/-- Why a number is no command. -/
inductive DecodeError where
  /-- The number has a bit above bit 22, and the command port has 23 wires (rules R51, R60). Log entry 12. -/
  | widerThanCommandPort
  deriving DecidableEq, Repr

/-- Decode of a number: every number below `2^23` is a command word, every other is rejected by name (rules R58, R60). -/
def decodeNumber (n : Nat) : Except DecodeError Instr :=
  if n < 2 ^ 23 then .ok (decode (BitVec.ofNat 23 n)) else .error .widerThanCommandPort

/-- The decoder on a table row's word: bits above `nbits` are 0. A row is one command word (rule R60). -/
def decodeTableWord (nbits w : Nat) : Option Instr :=
  match decodeNumber (w % 2 ^ nbits) with
  | .ok i => some i
  | .error _ => none

/-! The encoder: the three fields of every instruction (rules R51 to R53). -/

/-- The operation of an instruction (rule R52). -/
def Instr.op : Instr → Op
  | .idle _ _ => .idle
  | .writeAH _ => .write
  | .writeAL _ => .write
  | .writeBH _ => .write
  | .writeBL _ => .write
  | .writeCH _ => .write
  | .writeCL _ => .write
  | .writeDH _ => .write
  | .writeDL _ => .write
  | .writeAX _ => .write
  | .writeBX _ => .write
  | .writeCX _ => .write
  | .writeDX _ => .write
  | .writeSP _ => .write
  | .writeBP _ => .write
  | .writeDI _ => .write
  | .writeSI _ => .write
  | .writeUnknown _ _ => .write
  | .init _ _ => .init
  | .rsvd _ _ => .rsvd

/-- The `sel` field of an instruction (rule R53). -/
def Instr.sel : Instr → Sel
  | .idle sel _ => sel
  | .writeAH _ => 0b00000
  | .writeAL _ => 0b00001
  | .writeBH _ => 0b00010
  | .writeBL _ => 0b00011
  | .writeCH _ => 0b00100
  | .writeCL _ => 0b00101
  | .writeDH _ => 0b00110
  | .writeDL _ => 0b00111
  | .writeAX _ => 0b01000
  | .writeBX _ => 0b01001
  | .writeCX _ => 0b01010
  | .writeDX _ => 0b01011
  | .writeSP _ => 0b01100
  | .writeBP _ => 0b01101
  | .writeDI _ => 0b01110
  | .writeSI _ => 0b01111
  | .writeUnknown sel _ => sel
  | .init sel _ => sel
  | .rsvd sel _ => sel

/-- The `value` field of an instruction (rule R56). -/
def Instr.value : Instr → Word
  | .idle _ v => v
  | .writeAH v => v
  | .writeAL v => v
  | .writeBH v => v
  | .writeBL v => v
  | .writeCH v => v
  | .writeCL v => v
  | .writeDH v => v
  | .writeDL v => v
  | .writeAX v => v
  | .writeBX v => v
  | .writeCX v => v
  | .writeDX v => v
  | .writeSP v => v
  | .writeBP v => v
  | .writeDI v => v
  | .writeSI v => v
  | .writeUnknown _ v => v
  | .init _ v => v
  | .rsvd _ v => v

/-- The command word of an instruction (rule R51). -/
def encode (i : Instr) : Cmd := cmdWord (opBits i.op) i.sel i.value

/-- The canonical spelling of a command with ignored fields: they are zero, and an unrecognised-name write has
`sel = 31` (rule R57; the column "canonical" of opcode_table.json). A named write is its own canonical spelling
(log entry 11). -/
def Instr.canonical : Instr → Instr
  | .idle _ _ => .idle 0 0
  | .writeAH v => .writeAH v
  | .writeAL v => .writeAL v
  | .writeBH v => .writeBH v
  | .writeBL v => .writeBL v
  | .writeCH v => .writeCH v
  | .writeCL v => .writeCL v
  | .writeDH v => .writeDH v
  | .writeDL v => .writeDL v
  | .writeAX v => .writeAX v
  | .writeBX v => .writeBX v
  | .writeCX v => .writeCX v
  | .writeDX v => .writeDX v
  | .writeSP v => .writeSP v
  | .writeBP v => .writeBP v
  | .writeDI v => .writeDI v
  | .writeSI v => .writeSI v
  | .writeUnknown _ _ => .writeUnknown 31 0
  | .init _ _ => .init 0 0
  | .rsvd _ _ => .rsvd 0 0

/-! opcode_table.json: a word belongs to a row when `word &&& mask = pattern`. -/

/-- One row of opcode_table.json. -/
structure TableRow where
  mnemonic : String
  pattern : Cmd
  mask : Cmd
  deriving DecidableEq, Repr

/-- The rows of half-register writes. -/
def halfRows : List TableRow :=
  [⟨"WRITE_AH", 0x200000, 0x7F0000⟩,
   ⟨"WRITE_AL", 0x210000, 0x7F0000⟩,
   ⟨"WRITE_BH", 0x220000, 0x7F0000⟩,
   ⟨"WRITE_BL", 0x230000, 0x7F0000⟩,
   ⟨"WRITE_CH", 0x240000, 0x7F0000⟩,
   ⟨"WRITE_CL", 0x250000, 0x7F0000⟩,
   ⟨"WRITE_DH", 0x260000, 0x7F0000⟩,
   ⟨"WRITE_DL", 0x270000, 0x7F0000⟩]

/-- The rows of combined-register and address/index-register writes. -/
def wordRows : List TableRow :=
  [⟨"WRITE_AX", 0x280000, 0x7F0000⟩,
   ⟨"WRITE_BX", 0x290000, 0x7F0000⟩,
   ⟨"WRITE_CX", 0x2A0000, 0x7F0000⟩,
   ⟨"WRITE_DX", 0x2B0000, 0x7F0000⟩,
   ⟨"WRITE_SP", 0x2C0000, 0x7F0000⟩,
   ⟨"WRITE_BP", 0x2D0000, 0x7F0000⟩,
   ⟨"WRITE_DI", 0x2E0000, 0x7F0000⟩,
   ⟨"WRITE_SI", 0x2F0000, 0x7F0000⟩]

/-- opcode_table.json, row by row, in its order. -/
def opcodeTable : List TableRow :=
  [⟨"IDLE", 0x000000, 0x600000⟩] ++ halfRows ++ wordRows ++
  [⟨"WRITE_UNKNOWN", 0x300000, 0x700000⟩,
   ⟨"INIT", 0x400000, 0x600000⟩,
   ⟨"RSVD", 0x600000, 0x600000⟩]

/-- The number of an instruction's row in `opcodeTable`, from 0. -/
def Instr.row : Instr → Nat
  | .idle _ _ => 0
  | .writeAH _ => 1
  | .writeAL _ => 2
  | .writeBH _ => 3
  | .writeBL _ => 4
  | .writeCH _ => 5
  | .writeCL _ => 6
  | .writeDH _ => 7
  | .writeDL _ => 8
  | .writeAX _ => 9
  | .writeBX _ => 10
  | .writeCX _ => 11
  | .writeDX _ => 12
  | .writeSP _ => 13
  | .writeBP _ => 14
  | .writeDI _ => 15
  | .writeSI _ => 16
  | .writeUnknown _ _ => 17
  | .init _ _ => 18
  | .rsvd _ _ => 19

end Sys2Proof
end

