-- ==== Sys2Proof/Config.lean ====
section
/-! DEFINITION. Config.lean: the implementation parameters (rules R7 to R9), the parameters that decision D17 leaves
open, and the free values of the model (the inputs of an edge for which no input is listed). -/

namespace Sys2Proof

/-- `HALF_WRITE_MODE` (rule R9, decision D10). -/
inductive HalfWriteMode where
  /-- `REFERENCE`, the normative half-register write (rules R65 to R73). -/
  | reference
  /-- `CONVENTIONAL`, the alternative of rule R74. -/
  | conventional
  deriving DecidableEq, Repr, Inhabited

/-- The parameters of one instance, fixed for its life (rules R7 to R9, R28). -/
structure Config where
  /-- `MEM_BYTES`, the capacity of the AddressSpace in bytes (rule R7). -/
  memBytes : Nat
  /-- `INIT_AX_VALUE`, what INIT writes to AX (rule R8). -/
  initAxValue : Word
  /-- `HALF_WRITE_MODE` (rule R9). -/
  halfWriteMode : HalfWriteMode
  deriving DecidableEq, Repr, Inhabited

/-- The reference configuration: the defaults that rules R7, R8 and R9 state. -/
def Config.reference : Config :=
  { memBytes := 262144, initAxValue := 302, halfWriteMode := .reference }

/-- `ceil(log2 n)`. -/
def ceilLog2 (n : Nat) : Nat := if n ≤ 1 then 0 else Nat.log2 (n - 1) + 1

/-- The bits an address into the AddressSpace needs, `ceil(log2(MEM_BYTES))` (00_scope.md section 3, derived sizes). -/
def Config.minAddrBits (c : Config) : Nat := ceilLog2 c.memBytes

/-- The two values of `MEM_BYTE_ORDER` (decision D17). -/
inductive ByteOrder where
  | little
  | big
  deriving DecidableEq, Repr, Inhabited

/-- The three values of `MEM_MISALIGNED` (decision D17). -/
inductive MisalignedPolicy where
  | trap
  | split
  | refuse
  deriving DecidableEq, Repr, Inhabited

/-- `MEM_BYTE_ORDER`, left open by rule R42 and decision D17: no rule reads it. Log entry 6. -/
opaque Config.memByteOrder : ByteOrder

/-- `MEM_MISALIGNED`, left open by rule R43 and decision D17: no rule reads it. Log entry 6. -/
opaque Config.memMisaligned : MisalignedPolicy

/-- By how much `MEM_ADDR_BITS` exceeds the least width it may have (decision D17). Log entry 6. -/
opaque Config.memAddrSlack : Nat

/-- `MEM_ADDR_BITS`: "at least `ceil(log2(MEM_BYTES))`", otherwise open (decision D17): no rule reads it. -/
def Config.memAddrBits (c : Config) : Nat := c.minAddrBits + Config.memAddrSlack

/-- FREE VALUE: the level of `rst` at an edge for which State lists no input. Log entry 2. -/
opaque Config.freeRst : Nat → Bool

/-- FREE VALUE: the word on `cmd` at an edge for which State lists no input. Log entry 2. -/
opaque Config.freeCmd : Nat → Cmd

end Sys2Proof
end

