-- ==== Sys2Proof/Machine/State.lean ====
section
/-! DEFINITION. Machine/State.lean: the state of the block (rule R20), its construction state (rule R31), and the
reasons a step can stop. State is plain data. -/

namespace Sys2Proof.Machine

/-- The AddressSpace (rule R37): the bytes that differ from zero, by rising address. An unlisted address holds zero,
the value of every byte at construction (rules R31, R37). Log entry 7. -/
abbrev Memory := List Host.Cell

/-- The canonical form: addresses strictly rising, and no entry equal to what an unlisted address holds. -/
abbrev Memory.wf (m : Memory) : Prop :=
  m.Pairwise (fun c d => c.1 < d.1) ∧ ∀ c ∈ m, c.2 ≠ 0

/-- The state. The registers, flags and memory are the record of rule R20; `config` is the instance's configuration,
which no step changes (rules R7 to R9, R28; log entry 4); `inputs` and `drawn` stand for the host (rule R111; log
entries 1 and 2). -/
structure State where
  -- rule R14: the half-registers
  AH : Byte
  AL : Byte
  BH : Byte
  BL : Byte
  CH : Byte
  CL : Byte
  DH : Byte
  DL : Byte
  -- rule R16: the combined registers, stored independently of their halves
  AX : Word
  BX : Word
  CX : Word
  DX : Word
  -- rule R18: the address/index registers
  SP : Word
  BP : Word
  DI : Word
  SI : Word
  -- rule R22: the flags (IF_ as rule R20 spells it)
  TF : Bool
  DF : Bool
  IF_ : Bool
  OF : Bool
  SF : Bool
  ZF : Bool
  AF : Bool
  PF : Bool
  CF : Bool
  -- rule R37: the AddressSpace
  mem : Memory
  -- rules R7 to R9: the parameters of this instance
  config : Config
  -- the inputs the host will present at the coming edges, the next one first
  inputs : List Input
  -- how many free inputs have been drawn (the model's own field)
  drawn : Nat
  deriving DecidableEq, Repr

/-- The block has no fault: it "raises no exception, fault or error signal, synchronous or otherwise" (rule R91), so
this type has no constructor. Safe: nothing is left out, every input in every state has a next state (log entry 14). -/
inductive Fault where
  deriving DecidableEq, Repr

/-- The model's refusals. -/
inductive Refusal where
  /-- Raised by an arm of `exec` whose instruction has no meaning yet; no arm of this model raises it. Safe. -/
  | notModelled (mnemonic : String)
  deriving DecidableEq, Repr

/-- `Construct` (rule R31) of an instance with the parameters `c`: every register 0, every flag false, every byte 0.
No input is listed and no free input has been drawn (log entry 17). -/
def State.construct (c : Config) : State :=
  { AH := 0, AL := 0, BH := 0, BL := 0, CH := 0, CL := 0, DH := 0, DL := 0
    AX := 0, BX := 0, CX := 0, DX := 0
    SP := 0, BP := 0, DI := 0, SI := 0
    TF := false, DF := false, IF_ := false
    OF := false, SF := false, ZF := false, AF := false, PF := false, CF := false
    mem := []
    config := c
    inputs := []
    drawn := 0 }

/-- Power-on (rule R105): the first state of the block is `Construct`, here with the default parameters. -/
def State.reset : State := State.construct Config.reference

/-- The outputs of the block, one per storage element but the memory (rule R63). -/
structure Outputs where
  ah_o : Byte
  al_o : Byte
  bh_o : Byte
  bl_o : Byte
  ch_o : Byte
  cl_o : Byte
  dh_o : Byte
  dl_o : Byte
  ax_o : Word
  bx_o : Word
  cx_o : Word
  dx_o : Word
  sp_o : Word
  bp_o : Word
  di_o : Word
  si_o : Word
  tf_o : Bool
  df_o : Bool
  if_o : Bool
  of_o : Bool
  sf_o : Bool
  zf_o : Bool
  af_o : Bool
  pf_o : Bool
  cf_o : Bool
  deriving DecidableEq, Repr

end Sys2Proof.Machine
end

