-- ==== Sys2Proof/Machine/Flags.lean ====
section
/-! DEFINITION. Machine/Flags.lean: the flag bank (rules R22 to R26). It is only read: no operation of the block writes
or computes a flag (rule R24), so there is no setter and no flag computation here. -/

namespace Sys2Proof.Machine

/-- `flag[F]` (rule R22). -/
def State.flag (s : State) : FlagName → Bool
  | .TF => s.TF
  | .DF => s.DF
  | .IF => s.IF_
  | .OF => s.OF
  | .SF => s.SF
  | .ZF => s.ZF
  | .AF => s.AF
  | .PF => s.PF
  | .CF => s.CF

/-- The grouping of the flags by role (rules R4, R22); no operation reads it (rule R23). -/
def flagRole : FlagName → FlagRole
  | .TF => .control
  | .DF => .control
  | .IF => .control
  | .OF => .status
  | .SF => .status
  | .ZF => .status
  | .AF => .status
  | .PF => .status
  | .CF => .status

end Sys2Proof.Machine
end

