-- ==== Sys2Proof/Machine/Operands.lean ====
section
/-! DEFINITION. Machine/Operands.lean: the parts of the value operand (rule R56) and the two ways a half write
recombines a pair (rules R65, R74). Every value is unsigned (00_scope.md section 4). -/

namespace Sys2Proof.Machine

/-- `value[15:8]`, the source's `value >> 8` stored into 8 bits (rules R11, R12). -/
def hiByte (v : Word) : Byte := v.extractLsb' 8 8

/-- `value[7:0]`, the source's "truncated to its low 8 bits" (rule R12). -/
def loByte (v : Word) : Byte := v.extractLsb' 0 8

/-- `h ++ l = h * 256 + l` (rules R17, R41). -/
def concat (h l : Byte) : Word := h ++ l

/-- `(updated * 16 + sibling) mod 2^16`: the exact sum, then the remainder (rules R12, R65). -/
def scaledSum (updated sibling : Byte) : Word :=
  BitVec.ofNat 16 (updated.toNat * 16 + sibling.toNat)

end Sys2Proof.Machine
end

