-- ==== Sys2Proof/Machine/Ops.lean ====
section
/-! DEFINITION. Machine/Ops.lean: the named operations every meaning is built of. Reads and writes of one register,
the three write policies and their single entry point `setRegister` (rule R3), the reset (rule R106), the input of one
edge (rules R64, R111), one byte of the AddressSpace (rule R37) and the outputs (rule R63). The block takes no
exception and returns from none (rules R91, R94, R95), so there is no such operation. -/

namespace Sys2Proof.Machine

/-! Reading. -/

/-- The sibling half (rule R15). -/
def sibling : HalfKind → HalfKind
  | .high => .low
  | .low => .high

/-- `reg[xH]` or `reg[xL]` (rule R14). -/
def State.half (s : State) : Pair → HalfKind → Byte
  | .A, .high => s.AH
  | .A, .low => s.AL
  | .B, .high => s.BH
  | .B, .low => s.BL
  | .C, .high => s.CH
  | .C, .low => s.CL
  | .D, .high => s.DH
  | .D, .low => s.DL

/-- `reg[xX]` (rule R16). -/
def State.combined (s : State) : Pair → Word
  | .A => s.AX
  | .B => s.BX
  | .C => s.CX
  | .D => s.DX

/-- `reg[r]` for an address/index register (rule R18). -/
def State.index (s : State) : IndexReg → Word
  | .SP => s.SP
  | .BP => s.BP
  | .DI => s.DI
  | .SI => s.SI

/-- `reg[NAME]` as a number (rule R13): each name designates one element of its own. -/
def State.reg (s : State) : RegName → Nat
  | .half p k => (s.half p k).toNat
  | .combined p => (s.combined p).toNat
  | .index r => (s.index r).toNat

/-- The byte a memory holds at an address: the listed byte, and zero at an unlisted address (rules R31, R37). -/
def Memory.read : Memory → Nat → Byte
  | [], _ => 0
  | c :: m, a => if c.1 = a then c.2 else Memory.read m a

/-- `mem[a]` for `a` in `0 .. MEM_BYTES-1`; no other byte exists (rule R37). An observation: no command reads it
(rule R39). -/
def State.byteAt (s : State) (a : Nat) : Option Byte :=
  if a < s.config.memBytes then some (s.mem.read a) else none

/-- The 25 outputs, each driven from its stored value (rules R29, R63, R113). -/
def State.outputs (s : State) : Outputs :=
  { ah_o := s.AH, al_o := s.AL, bh_o := s.BH, bl_o := s.BL, ch_o := s.CH, cl_o := s.CL, dh_o := s.DH, dl_o := s.DL
    ax_o := s.AX, bx_o := s.BX, cx_o := s.CX, dx_o := s.DX
    sp_o := s.SP, bp_o := s.BP, di_o := s.DI, si_o := s.SI
    tf_o := s.TF, df_o := s.DF, if_o := s.IF_
    of_o := s.OF, sf_o := s.SF, zf_o := s.ZF, af_o := s.AF, pf_o := s.PF, cf_o := s.CF }

/-! Writing one element. -/

/-- `reg[xH] <- b` or `reg[xL] <- b`. -/
def State.setHalf (s : State) : Pair → HalfKind → Byte → State
  | .A, .high, b => { s with AH := b }
  | .A, .low, b => { s with AL := b }
  | .B, .high, b => { s with BH := b }
  | .B, .low, b => { s with BL := b }
  | .C, .high, b => { s with CH := b }
  | .C, .low, b => { s with CL := b }
  | .D, .high, b => { s with DH := b }
  | .D, .low, b => { s with DL := b }

/-- `reg[xX] <- v`. -/
def State.setCombined (s : State) : Pair → Word → State
  | .A, v => { s with AX := v }
  | .B, v => { s with BX := v }
  | .C, v => { s with CX := v }
  | .D, v => { s with DX := v }

/-- `reg[r] <- v` for an address/index register. -/
def State.setIndex (s : State) : IndexReg → Word → State
  | .SP, v => { s with SP := v }
  | .BP, v => { s with BP := v }
  | .DI, v => { s with DI := v }
  | .SI, v => { s with SI := v }

/-! The three write policies. Each right-hand side reads the state before the step (00_scope.md section 4, rule R45). -/

/-- Half-register write, `REFERENCE` mode (rule R65). -/
def halfWriteReference (p : Pair) (k : HalfKind) (v : Word) (s : State) : State :=
  (s.setHalf p k (hiByte v)).setCombined p (scaledSum (hiByte v) (s.half p (sibling k)))

/-- Half-register write, `CONVENTIONAL` mode (rule R74). -/
def halfWriteConventional (p : Pair) (k : HalfKind) (v : Word) (s : State) : State :=
  (s.setHalf p k (loByte v)).setCombined p
    (match k with
     | .high => concat (loByte v) (s.half p .low)
     | .low => concat (s.half p .high) (loByte v))

/-- Policy 1, by the instance's `HALF_WRITE_MODE` (rules R9, R65, R74). -/
def halfWrite (p : Pair) (k : HalfKind) (v : Word) (s : State) : State :=
  match s.config.halfWriteMode with
  | .reference => halfWriteReference p k v s
  | .conventional => halfWriteConventional p k v s

/-- Policy 2, the combined-register write (rule R75). -/
def combinedWrite (p : Pair) (v : Word) (s : State) : State :=
  ((s.setCombined p v).setHalf p .high (hiByte v)).setHalf p .low (loByte v)

/-- Policy 3, the address/index-register write (rule R80). -/
def indexWrite (r : IndexReg) (v : Word) (s : State) : State :=
  s.setIndex r v

/-- `setRegister(name, value)`, the single named-write entry point (rule R3). An unrecognised name, here `none`,
leaves all state unchanged (rule R86). -/
def setRegister (name : Option RegName) (v : Word) (s : State) : State :=
  match name with
  | some (.half p k) => halfWrite p k v s
  | some (.combined p) => combinedWrite p v s
  | some (.index r) => indexWrite r v s
  | none => s

/-- The `initialize` operation: one named write of AX (rule R88). -/
def performInit (s : State) : State :=
  setRegister (some (.combined .A)) s.config.initAxValue s

/-! One clock edge. -/

/-- A step with `rst = 1`: the next state of the block is `Construct` (rule R106). The parameters are the instance's
own (rule R28), and what the host will present next is not the block's to change (log entry 18). -/
def applyReset (s : State) : State :=
  { State.construct s.config with inputs := s.inputs, drawn := s.drawn }

/-- The inputs at the coming edge and the state without them: the next listed input, or a free one where State lists
none (rules R21, R111; log entries 1 and 2). -/
def takeInput (s : State) : Input × State :=
  match s.inputs with
  | inp :: rest => (inp, { s with inputs := rest })
  | [] =>
    ({ rst := Config.freeRst s.drawn, cmd := Config.freeCmd s.drawn }, { s with drawn := s.drawn + 1 })

end Sys2Proof.Machine
end

