-- ==== Sys2Proof/Machine/CombinedWrites.lean ====
section
/-! DEFINITION. Machine/CombinedWrites.lean: the meanings of the combined-register writes (41_combined_register_writes.md). -/

namespace Sys2Proof.Machine

/-- `WRITE AX, v` (rule R76). -/
def execWriteAX (v : Word) (s : State) : Host.Outcome State Fault Refusal :=
  .next (setRegister (some (.combined .A)) v s)

/-- `WRITE BX, v` (rule R77). -/
def execWriteBX (v : Word) (s : State) : Host.Outcome State Fault Refusal :=
  .next (setRegister (some (.combined .B)) v s)

/-- `WRITE CX, v` (rule R78). -/
def execWriteCX (v : Word) (s : State) : Host.Outcome State Fault Refusal :=
  .next (setRegister (some (.combined .C)) v s)

/-- `WRITE DX, v` (rule R79). -/
def execWriteDX (v : Word) (s : State) : Host.Outcome State Fault Refusal :=
  .next (setRegister (some (.combined .D)) v s)

end Sys2Proof.Machine
end

