-- ==== Sys2Proof/Machine/Control.lean ====
section
/-! DEFINITION. Machine/Control.lean: the meanings of the control commands (43_control_commands.md). Each takes the
fields of its word, which rule R57 says it ignores. -/

namespace Sys2Proof.Machine

/-- `IDLE`: nothing is written (rule R85). -/
def execIdle (_sel : Sel) (_v : Word) (s : State) : Host.Outcome State Fault Refusal :=
  .next s

/-- `WRITE ?sel, v`: a named write to an unrecognised name, the silent no-op (rule R86). -/
def execWriteUnknown (_sel : Sel) (v : Word) (s : State) : Host.Outcome State Fault Refusal :=
  .next (setRegister none v s)

/-- `INIT`: the `initialize` operation (rule R88). -/
def execInit (_sel : Sel) (_v : Word) (s : State) : Host.Outcome State Fault Refusal :=
  .next (performInit s)

/-- `RSVD`: nothing is written and nothing is signalled (rules R59, R89; log entry 8). -/
def execRsvd (_sel : Sel) (_v : Word) (s : State) : Host.Outcome State Fault Refusal :=
  .next s

end Sys2Proof.Machine
end

