-- ==== Sys2Proof/Machine/HalfWrites.lean ====
section
/-! DEFINITION. Machine/HalfWrites.lean: the meanings of the half-register writes (40_half_register_writes.md). -/

namespace Sys2Proof.Machine

/-- `WRITE AH, v` (rule R66). -/
def execWriteAH (v : Word) (s : State) : Host.Outcome State Fault Refusal :=
  .next (setRegister (some (.half .A .high)) v s)

/-- `WRITE AL, v` (rule R67). -/
def execWriteAL (v : Word) (s : State) : Host.Outcome State Fault Refusal :=
  .next (setRegister (some (.half .A .low)) v s)

/-- `WRITE BH, v` (rule R68). -/
def execWriteBH (v : Word) (s : State) : Host.Outcome State Fault Refusal :=
  .next (setRegister (some (.half .B .high)) v s)

/-- `WRITE BL, v` (rule R69). -/
def execWriteBL (v : Word) (s : State) : Host.Outcome State Fault Refusal :=
  .next (setRegister (some (.half .B .low)) v s)

/-- `WRITE CH, v` (rule R70). -/
def execWriteCH (v : Word) (s : State) : Host.Outcome State Fault Refusal :=
  .next (setRegister (some (.half .C .high)) v s)

/-- `WRITE CL, v` (rule R71). -/
def execWriteCL (v : Word) (s : State) : Host.Outcome State Fault Refusal :=
  .next (setRegister (some (.half .C .low)) v s)

/-- `WRITE DH, v` (rule R72). -/
def execWriteDH (v : Word) (s : State) : Host.Outcome State Fault Refusal :=
  .next (setRegister (some (.half .D .high)) v s)

/-- `WRITE DL, v` (rule R73). -/
def execWriteDL (v : Word) (s : State) : Host.Outcome State Fault Refusal :=
  .next (setRegister (some (.half .D .low)) v s)

end Sys2Proof.Machine
end

