-- ==== Sys2Proof/Machine/IndexWrites.lean ====
section
/-! DEFINITION. Machine/IndexWrites.lean: the meanings of the address/index-register writes (42_index_register_writes.md). -/

namespace Sys2Proof.Machine

/-- `WRITE SP, v` (rule R81). -/
def execWriteSP (v : Word) (s : State) : Host.Outcome State Fault Refusal :=
  .next (setRegister (some (.index .SP)) v s)

/-- `WRITE BP, v` (rule R82). -/
def execWriteBP (v : Word) (s : State) : Host.Outcome State Fault Refusal :=
  .next (setRegister (some (.index .BP)) v s)

/-- `WRITE DI, v` (rule R83). -/
def execWriteDI (v : Word) (s : State) : Host.Outcome State Fault Refusal :=
  .next (setRegister (some (.index .DI)) v s)

/-- `WRITE SI, v` (rule R84). -/
def execWriteSI (v : Word) (s : State) : Host.Outcome State Fault Refusal :=
  .next (setRegister (some (.index .SI)) v s)

end Sys2Proof.Machine
end

