-- ==== Sys2Proof/Machine/Dispatch.lean ====
section
/-! DEFINITION. Machine/Dispatch.lean: one arm per row of opcode_table.json (`Exec` of rule R21). -/

namespace Sys2Proof.Machine

def exec (i : Instr) (s : State) : Host.Outcome State Fault Refusal :=
  match i with
  | .idle sel v => Sys2Proof.Machine.execIdle sel v s
  | .writeAH v => Sys2Proof.Machine.execWriteAH v s
  | .writeAL v => Sys2Proof.Machine.execWriteAL v s
  | .writeBH v => Sys2Proof.Machine.execWriteBH v s
  | .writeBL v => Sys2Proof.Machine.execWriteBL v s
  | .writeCH v => Sys2Proof.Machine.execWriteCH v s
  | .writeCL v => Sys2Proof.Machine.execWriteCL v s
  | .writeDH v => Sys2Proof.Machine.execWriteDH v s
  | .writeDL v => Sys2Proof.Machine.execWriteDL v s
  | .writeAX v => Sys2Proof.Machine.execWriteAX v s
  | .writeBX v => Sys2Proof.Machine.execWriteBX v s
  | .writeCX v => Sys2Proof.Machine.execWriteCX v s
  | .writeDX v => Sys2Proof.Machine.execWriteDX v s
  | .writeSP v => Sys2Proof.Machine.execWriteSP v s
  | .writeBP v => Sys2Proof.Machine.execWriteBP v s
  | .writeDI v => Sys2Proof.Machine.execWriteDI v s
  | .writeSI v => Sys2Proof.Machine.execWriteSI v s
  | .writeUnknown sel v => Sys2Proof.Machine.execWriteUnknown sel v s
  | .init sel v => Sys2Proof.Machine.execInit sel v s
  | .rsvd sel v => Sys2Proof.Machine.execRsvd sel v s

end Sys2Proof.Machine
end

