-- ==== Sys2Proof/Machine/Step.lean ====
section
/-! DEFINITION. Machine/Step.lean: one step is one rising edge of `clk` (rules R21, R106, R112). -/

namespace Sys2Proof.Machine

/-- `next(state, rst, cmd) = if rst = 1 then Construct else Exec(decode(cmd), state)` (rule R106), for the inputs of
the coming edge. -/
def step (s : State) : Host.Outcome State Fault Refusal :=
  if (takeInput s).1.rst then .next (applyReset (takeInput s).2)
  else exec (decode (takeInput s).1.cmd) (takeInput s).2

/-- The state in which the host presents the command word `w` at the next edge, with `rst = 0`, before whatever it
presents already. The block fetches nothing (rule R47): the host presents each command (rule R111). Log entry 3. -/
def State.withFetchWord (s : State) (nbits w : Nat) : State :=
  { s with inputs := { rst := false, cmd := BitVec.ofNat 23 (w % 2 ^ nbits) } :: s.inputs }

end Sys2Proof.Machine
end

