-- ==== Sys2Proof/Machine/Text.lean ====
section
/-! DEFINITION. Machine/Text.lean: the spec's textual form of a command (rule R61, decision D18) and the host's mapping
of name strings to selectors (decision D22). The text of a line is held as its parts, not as characters (log entry 15). -/

namespace Sys2Proof.Machine

/-- The upper-case spelling of a register name (rules R53, R61). -/
def regSpelling : RegName → String
  | .half .A .high => "AH"
  | .half .A .low => "AL"
  | .half .B .high => "BH"
  | .half .B .low => "BL"
  | .half .C .high => "CH"
  | .half .C .low => "CL"
  | .half .D .high => "DH"
  | .half .D .low => "DL"
  | .combined .A => "AX"
  | .combined .B => "BX"
  | .combined .C => "CX"
  | .combined .D => "DX"
  | .index .SP => "SP"
  | .index .BP => "BP"
  | .index .DI => "DI"
  | .index .SI => "SI"

/-- The 16 names in the order of rule R53. -/
def allRegNames : List RegName :=
  [.half .A .high, .half .A .low, .half .B .high, .half .B .low,
   .half .C .high, .half .C .low, .half .D .high, .half .D .low,
   .combined .A, .combined .B, .combined .C, .combined .D,
   .index .SP, .index .BP, .index .DI, .index .SI]

/-- The selector a host presents for a name string: the code of an exact spelling, and 31 for every other string
(decision D22). -/
def selectorOfName (name : String) : Sel :=
  match allRegNames.find? (fun r => regSpelling r == name) with
  | some r => selOfReg r
  | none => 31

/-- One line of the textual form (rule R61). -/
inductive TextCommand where
  /-- `IDLE` -/
  | idle
  /-- `WRITE <name>, <value>` -/
  | write (name : String) (value : Word)
  /-- `WRITE ?<code>, <value>` -/
  | writeCode (code : Sel) (value : Word)
  /-- `INIT` -/
  | init
  /-- `RSVD` -/
  | rsvd
  /-- `RESET`: "not a command: the reset input `rst` held at 1 for one step" -/
  | reset
  deriving DecidableEq, Repr

/-- `<code>` is in 16..31 (rule R61). -/
def TextCommand.wellFormed : TextCommand → Bool
  | .idle => true
  | .write _ _ => true
  | .writeCode code _ => code.getLsbD 4
  | .init => true
  | .rsvd => true
  | .reset => true

/-- The inputs of the edge that a line stands for (rule R61). With `RESET` the command word is that of `IDLE`
(log entry 15). -/
def TextCommand.input : TextCommand → Input
  | .idle => { rst := false, cmd := 0x000000 }
  | .write name value => { rst := false, cmd := cmdWord 0b01 (selectorOfName name) value }
  | .writeCode code value => { rst := false, cmd := cmdWord 0b01 code value }
  | .init => { rst := false, cmd := 0x400000 }
  | .rsvd => { rst := false, cmd := 0x600000 }
  | .reset => { rst := true, cmd := 0x000000 }

end Sys2Proof.Machine
end

