-- ==== Sys2Proof/Safety.lean ====
section
/-! DEFINITION. Safety.lean: the words the statements use. What holds of a pair (rule R17), of the flags and the memory
(rules R25, R38), which states a run reaches (rule R120), and the outcome of a run over listed inputs (rules R46, R114). -/

namespace Sys2Proof.Machine

/-- `Consistent_x`: `reg[xX] = reg[xH] ++ reg[xL]` (rule R17). -/
abbrev State.Consistent (s : State) (p : Pair) : Prop :=
  s.combined p = concat (s.half p .high) (s.half p .low)

/-- Every flag is false (rule R25). -/
abbrev State.FlagsClear (s : State) : Prop := ∀ f : FlagName, s.flag f = false

/-- Every byte of the AddressSpace is zero (rule R38). -/
abbrev State.MemoryZero (s : State) : Prop := ∀ a b, s.byteAt a = some b → b = 0

/-- The memory is in its canonical form and lists no address outside the AddressSpace (rule R37). -/
abbrev State.MemoryWf (s : State) : Prop :=
  s.mem.wf ∧ ∀ c ∈ s.mem, c.1 < s.config.memBytes

/-- The states a run reaches: the construction state of any instance, with any inputs to come, and every state a step
leads to (rules R104, R120). -/
inductive Reachable : State → Prop where
  | construct (c : Config) (l : List Input) : Reachable { State.construct c with inputs := l }
  | step {s t : State} : Reachable s → step s = .next t → Reachable t

/-- The outcome of presenting the inputs `l`, one per edge, from `s` (rules R46, R120). -/
def runInputs (l : List Input) (s : State) : Host.Outcome State Fault Refusal :=
  Host.Core.run core l.length { s with inputs := l }

/-- A safe run: it stops at no fault and no refusal. -/
def SafeRun (l : List Input) (s : State) : Prop := ∃ t, runInputs l s = .next t

/-- The edge presents IDLE: `rst = 0` and `op = 00` (rules R85, R111). -/
def Input.isIdle (inp : Input) : Bool := !inp.rst && (opOfBits (opField inp.cmd) == .idle)

/-- The elements a command may write (the table of rule R30). -/
def mayWrite : Instr → List RegName
  | .idle _ _ => []
  | .writeAH _ => [.half .A .high, .combined .A]
  | .writeAL _ => [.half .A .low, .combined .A]
  | .writeBH _ => [.half .B .high, .combined .B]
  | .writeBL _ => [.half .B .low, .combined .B]
  | .writeCH _ => [.half .C .high, .combined .C]
  | .writeCL _ => [.half .C .low, .combined .C]
  | .writeDH _ => [.half .D .high, .combined .D]
  | .writeDL _ => [.half .D .low, .combined .D]
  | .writeAX _ => [.combined .A, .half .A .high, .half .A .low]
  | .writeBX _ => [.combined .B, .half .B .high, .half .B .low]
  | .writeCX _ => [.combined .C, .half .C .high, .half .C .low]
  | .writeDX _ => [.combined .D, .half .D .high, .half .D .low]
  | .writeSP _ => [.index .SP]
  | .writeBP _ => [.index .BP]
  | .writeDI _ => [.index .DI]
  | .writeSI _ => [.index .SI]
  | .writeUnknown _ _ => []
  | .init _ _ => [.combined .A, .half .A .high, .half .A .low]
  | .rsvd _ _ => []

end Sys2Proof.Machine
end

