-- ==== Sys2Proof/Certificates/Slice0/Obligations.lean ====
section
/-! DEFINITION. Certificates/Slice0/Obligations.lean: the statements for the provers. Each docstring names the rule of
spec/ it formalises. `exec` and `step` are the model's; a next state written `{ s with … }` is a whole frame: every
element not named keeps its value. -/

open Sys2Proof Sys2Proof.Machine

/-! One edge. -/

/-- Rule R106: at an edge with `rst = 1` the next state is `Construct` (every output and every byte is that of
`Construct`, the parameters are the instance's own), whatever the state and the command; at an edge with `rst = 0` the
decoded command runs. That the inputs to come stand in State is the model's choice (log entry 1). -/
def Obligations.StepResetsOrRunsTheDecodedCommand : Prop :=
  ∀ (s : State) (inp : Input) (l : List Input), s.inputs = inp :: l →
    (inp.rst = true → ∃ t, step s = .next t ∧ t.outputs = (State.construct s.config).outputs ∧
      (∀ a, t.byteAt a = (State.construct s.config).byteAt a) ∧ t.config = s.config) ∧
    (inp.rst = false → step s = exec (decode inp.cmd) { s with inputs := l })

/-- Log entries 1 and 18 (the model's choice): a step takes one listed input, whether it resets or runs a command, and
leaves the others and the count of free inputs as they were. -/
def Obligations.StepTakesOneListedInput : Prop :=
  ∀ (s t : State) (inp : Input) (l : List Input), s.inputs = inp :: l → step s = .next t →
    t.inputs = l ∧ t.drawn = s.drawn

/-- Log entry 2 (the model's choice): an edge for which State lists no input takes a free one, whatever its value. -/
def Obligations.StepWithNoListedInputTakesAFreeInput : Prop :=
  ∀ s : State, s.inputs = [] →
    step s = step { s with
      inputs := [{ rst := Config.freeRst s.drawn, cmd := Config.freeCmd s.drawn }], drawn := s.drawn + 1 }

/-- Log entry 3 (the model's choice): presenting a table word makes the very next step run the decoded instruction on
the state as it was. -/
def Obligations.WithFetchWordRunsTheTableWord : Prop :=
  ∀ (s : State) (nbits w : Nat), w < 2 ^ nbits → w < 2 ^ 23 →
    ∃ i, decodeTableWord nbits w = some i ∧ step (s.withFetchWord nbits w) = exec i s

/-! Encoding. -/

/-- Words of 95_test_vectors.md, one or more for each family, decode to the command their row names. -/
def Obligations.SpecWordsDecodeToTheirCommands : Prop :=
  decode 0x201234 = .writeAH 0x1234 ∧ decode 0x213400 = .writeAL 0x3400 ∧ decode 0x26FFFF = .writeDH 0xFFFF ∧
  decode 0x230056 = .writeBL 0x0056 ∧ decode 0x28012E = .writeAX 302 ∧ decode 0x2AA5A5 = .writeCX 0xA5A5 ∧
  decode 0x2CFFFE = .writeSP 0xFFFE ∧ decode 0x2F8000 = .writeSI 0x8000 ∧ decode 0x000000 = .idle 0 0 ∧
  decode 0x1FFFFF = .idle 31 0xFFFF ∧ decode 0x30FFFF = .writeUnknown 16 0xFFFF ∧
  decode 0x3F0000 = .writeUnknown 31 0 ∧ decode 0x400000 = .init 0 0 ∧ decode 0x7FFFFF = .rsvd 31 0xFFFF

/-- Decode of the encoding of every well-formed instruction is that instruction, every operand at every value. -/
def Obligations.DecodeOfEncodeIsTheInstruction : Prop :=
  ∀ i : Instr, i.WellFormed → decode (encode i) = i

/-- Every command word is the encoding of the instruction it decodes to, which is well formed. -/
def Obligations.EncodeOfDecodeIsTheWord : Prop :=
  ∀ w : Cmd, (decode w).WellFormed ∧ encode (decode w) = w

/-- Rule R51, its formula: `cmd = op * 2^21 + sel * 2^16 + value`. -/
def Obligations.CommandWordIsOpSelValue : Prop :=
  ∀ i : Instr, (encode i).toNat = (opBits i.op).toNat * 2 ^ 21 + i.sel.toNat * 2 ^ 16 + i.value.toNat

/-- Rule R58: decode is total, gives what the rule's case distinction gives, picks exactly one row of
opcode_table.json, and no word is illegal. -/
def Obligations.EveryWordDecodesToExactlyOneRow : Prop :=
  (∀ (sel : Sel) (v : Word),
    decode (cmdWord 0b00 sel v) = .idle sel v ∧
    decode (cmdWord 0b10 sel v) = .init sel v ∧
    decode (cmdWord 0b11 sel v) = .rsvd sel v ∧
    (sel.getLsbD 4 = true → decode (cmdWord 0b01 sel v) = .writeUnknown sel v)) ∧
  (∀ (r : RegName) (v : Word), decode (cmdWord 0b01 (selOfReg r) v) = writeOf r v) ∧
  (∀ w : Cmd, ∃ op sel v, w = cmdWord op sel v) ∧
  (∀ w : Cmd, ∃ row, opcodeTable[(decode w).row]? = some row ∧ w &&& row.mask = row.pattern ∧
    ∀ k row', opcodeTable[k]? = some row' → w &&& row'.mask = row'.pattern → k = (decode w).row) ∧
  (∀ (w : Cmd) (s : State), ∃ t, exec (decode w) s = .next t)

/-- Every well-formed instruction's word has the match of its row of opcode_table.json under the row's mask. -/
def Obligations.EncodingMatchesItsTableRow : Prop :=
  ∀ i : Instr, i.WellFormed →
    ∃ row, opcodeTable[i.row]? = some row ∧ encode i &&& row.mask = row.pattern

/-- Rule R53: the selector codes, in the order the rule lists the names, and the codes 16 to 31. -/
def Obligations.SelectorCodesFollowTheNameList : Prop :=
  ∀ v : Word,
    decode (cmdWord 0b01 0 v) = .writeAH v ∧
    decode (cmdWord 0b01 1 v) = .writeAL v ∧
    decode (cmdWord 0b01 2 v) = .writeBH v ∧
    decode (cmdWord 0b01 3 v) = .writeBL v ∧
    decode (cmdWord 0b01 4 v) = .writeCH v ∧
    decode (cmdWord 0b01 5 v) = .writeCL v ∧
    decode (cmdWord 0b01 6 v) = .writeDH v ∧
    decode (cmdWord 0b01 7 v) = .writeDL v ∧
    decode (cmdWord 0b01 8 v) = .writeAX v ∧
    decode (cmdWord 0b01 9 v) = .writeBX v ∧
    decode (cmdWord 0b01 10 v) = .writeCX v ∧
    decode (cmdWord 0b01 11 v) = .writeDX v ∧
    decode (cmdWord 0b01 12 v) = .writeSP v ∧
    decode (cmdWord 0b01 13 v) = .writeBP v ∧
    decode (cmdWord 0b01 14 v) = .writeDI v ∧
    decode (cmdWord 0b01 15 v) = .writeSI v ∧
    ∀ sel : Sel, 16 ≤ sel.toNat → decode (cmdWord 0b01 sel v) = .writeUnknown sel v

/-- Rule R54: the selector's bits decode the policy without a table. -/
def Obligations.SelectorBitsGiveThePolicy : Prop :=
  ∀ sel : Sel,
    (sel.getLsbD 4 = true → regOfSel sel = none) ∧
    (sel.extractLsb' 3 2 = 0b00 → ∃ p k, regOfSel sel = some (.half p k) ∧
      [Pair.A, .B, .C, .D][(sel.extractLsb' 1 2).toNat]? = some p ∧
      k = if sel.getLsbD 0 then .low else .high) ∧
    (sel.extractLsb' 2 3 = 0b010 → ∃ p, regOfSel sel = some (.combined p) ∧
      [Pair.A, .B, .C, .D][(sel.extractLsb' 0 2).toNat]? = some p) ∧
    (sel.extractLsb' 2 3 = 0b011 → ∃ r, regOfSel sel = some (.index r) ∧
      [IndexReg.SP, .BP, .DI, .SI][(sel.extractLsb' 0 2).toNat]? = some r)

/-- Rule R57: an ignored field changes nothing, and the canonical encodings are the rule's. -/
def Obligations.IgnoredFieldsDoNotMatter : Prop :=
  (∀ (sel sel' : Sel) (v v' : Word) (s : State),
    exec (.idle sel v) s = exec (.idle sel' v') s ∧
    exec (.init sel v) s = exec (.init sel' v') s ∧
    exec (.rsvd sel v) s = exec (.rsvd sel' v') s ∧
    exec (.writeUnknown sel v) s = exec (.writeUnknown sel' v') s) ∧
  (∀ (p : Pair) (k : HalfKind) (v v' : Word) (s : State), s.config.halfWriteMode = .reference →
    v.toNat / 256 = v'.toNat / 256 →
    exec (writeOf (.half p k) v) s = exec (writeOf (.half p k) v') s) ∧
  (∀ (p : Pair) (k : HalfKind) (v v' : Word) (s : State), s.config.halfWriteMode = .conventional →
    v.toNat % 256 = v'.toNat % 256 →
    exec (writeOf (.half p k) v) s = exec (writeOf (.half p k) v') s) ∧
  (∀ (sel : Sel) (v : Word),
    encode (Instr.idle sel v).canonical = 0x000000 ∧
    encode (Instr.init sel v).canonical = 0x400000 ∧
    encode (Instr.rsvd sel v).canonical = 0x600000 ∧
    encode (Instr.writeUnknown sel v).canonical = 0x3F0000)

/-- Rule R59: the reserved encodings run as a no-op, and RSVD exactly as IDLE. -/
def Obligations.ReservedEncodingsChangeNothing : Prop :=
  (∀ (w : Cmd) (s : State), 0x600000 ≤ w.toNat → exec (decode w) s = .next s) ∧
  (∀ (w : Cmd) (s : State), 0x300000 ≤ w.toNat → w.toNat ≤ 0x3FFFFF → exec (decode w) s = .next s) ∧
  (∀ (sel : Sel) (v : Word) (s : State), exec (.rsvd sel v) s = exec (.idle sel v) s)

/-- Rule R61 with decision D22: the words of the textual form. -/
def Obligations.TextFormGivesTheSpecWords : Prop :=
  (∀ (r : RegName) (v : Word),
    (TextCommand.write (regSpelling r) v).input.rst = false ∧
    (TextCommand.write (regSpelling r) v).input.cmd.toNat
      = 0x200000 + (selOfReg r).toNat * 0x10000 + v.toNat ∧
    decode (TextCommand.write (regSpelling r) v).input.cmd = writeOf r v) ∧
  (∀ (code : Sel) (v : Word), 16 ≤ code.toNat →
    (TextCommand.writeCode code v).input.rst = false ∧
    (TextCommand.writeCode code v).input.cmd.toNat = 0x200000 + code.toNat * 0x10000 + v.toNat) ∧
  (∀ (name : String) (v : Word), (∀ r, name ≠ regSpelling r) →
    decode (TextCommand.write name v).input.cmd = .writeUnknown 31 v) ∧
  (TextCommand.idle.input = { rst := false, cmd := 0x000000 } ∧
   TextCommand.init.input = { rst := false, cmd := 0x400000 } ∧
   TextCommand.rsvd.input = { rst := false, cmd := 0x600000 } ∧
   TextCommand.reset.input.rst = true)

/-! Half-register writes. -/

/-- Rules R66 to R73: each half write in `REFERENCE` mode, its word, its result and its frame. -/
def Obligations.HalfWritesInReferenceMode : Prop :=
  ∀ (s : State) (v : Word), s.config.halfWriteMode = .reference →
    (decode (BitVec.ofNat 23 (0x200000 + v.toNat)) = .writeAH v ∧
      exec (.writeAH v) s = .next { s with
        AH := v.extractLsb' 8 8, AX := BitVec.ofNat 16 (v.toNat / 256 * 16 + s.AL.toNat) }) ∧
    (decode (BitVec.ofNat 23 (0x210000 + v.toNat)) = .writeAL v ∧
      exec (.writeAL v) s = .next { s with
        AL := v.extractLsb' 8 8, AX := BitVec.ofNat 16 (v.toNat / 256 * 16 + s.AH.toNat) }) ∧
    (decode (BitVec.ofNat 23 (0x220000 + v.toNat)) = .writeBH v ∧
      exec (.writeBH v) s = .next { s with
        BH := v.extractLsb' 8 8, BX := BitVec.ofNat 16 (v.toNat / 256 * 16 + s.BL.toNat) }) ∧
    (decode (BitVec.ofNat 23 (0x230000 + v.toNat)) = .writeBL v ∧
      exec (.writeBL v) s = .next { s with
        BL := v.extractLsb' 8 8, BX := BitVec.ofNat 16 (v.toNat / 256 * 16 + s.BH.toNat) }) ∧
    (decode (BitVec.ofNat 23 (0x240000 + v.toNat)) = .writeCH v ∧
      exec (.writeCH v) s = .next { s with
        CH := v.extractLsb' 8 8, CX := BitVec.ofNat 16 (v.toNat / 256 * 16 + s.CL.toNat) }) ∧
    (decode (BitVec.ofNat 23 (0x250000 + v.toNat)) = .writeCL v ∧
      exec (.writeCL v) s = .next { s with
        CL := v.extractLsb' 8 8, CX := BitVec.ofNat 16 (v.toNat / 256 * 16 + s.CH.toNat) }) ∧
    (decode (BitVec.ofNat 23 (0x260000 + v.toNat)) = .writeDH v ∧
      exec (.writeDH v) s = .next { s with
        DH := v.extractLsb' 8 8, DX := BitVec.ofNat 16 (v.toNat / 256 * 16 + s.DL.toNat) }) ∧
    (decode (BitVec.ofNat 23 (0x270000 + v.toNat)) = .writeDL v ∧
      exec (.writeDL v) s = .next { s with
        DL := v.extractLsb' 8 8, DX := BitVec.ofNat 16 (v.toNat / 256 * 16 + s.DH.toNat) })

/-- Rule R65: in `REFERENCE` mode the half takes the high byte of the value, the owning combined register takes
`(h * 16 + sibling) mod 2^16` with the sibling's value before the step, and no other element is written. -/
def Obligations.ReferenceHalfWritePolicy : Prop :=
  ∀ (p : Pair) (k : HalfKind) (v : Word) (s : State), s.config.halfWriteMode = .reference →
    ∃ t, exec (writeOf (.half p k) v) s = .next t ∧
      (t.half p k).toNat = v.toNat / 256 ∧
      (t.combined p).toNat = (v.toNat / 256 * 16 + (s.half p (sibling k)).toNat) % 2 ^ 16 ∧
      (∀ q, q ≠ .half p k → q ≠ .combined p → t.reg q = s.reg q) ∧
      (∀ f, t.flag f = s.flag f) ∧ (∀ a, t.byteAt a = s.byteAt a) ∧ t.config = s.config

/-- The consequences that 40_half_register_writes.md section 1 derives from rule R65: the `mod` never changes the sum,
which is at most 4335; the pair is consistent exactly in the cases named; the same write again changes nothing; the low
byte has no effect. -/
def Obligations.ReferenceHalfWriteConsequences : Prop :=
  ∀ (p : Pair) (k : HalfKind) (v : Word) (s : State), s.config.halfWriteMode = .reference →
    ∃ t, exec (writeOf (.half p k) v) s = .next t ∧
      (t.combined p).toNat = v.toNat / 256 * 16 + (s.half p (sibling k)).toNat ∧
      (t.combined p).toNat ≤ 4335 ∧
      (t.Consistent p ↔
        match k with
        | .high => v.toNat / 256 = 0
        | .low => v.toNat / 256 = 17 * (s.half p .high).toNat) ∧
      exec (writeOf (.half p k) v) t = .next t ∧
      exec (writeOf (.half p k) (BitVec.ofNat 16 (v.toNat / 256 * 256))) s = .next t

/-- Rule R74: each half write in `CONVENTIONAL` mode, its result and its frame; the written pair is consistent after
it. -/
def Obligations.HalfWritesInConventionalMode : Prop :=
  (∀ (s : State) (v : Word), s.config.halfWriteMode = .conventional →
    (exec (.writeAH v) s = .next { s with
        AH := v.extractLsb' 0 8, AX := BitVec.ofNat 16 (v.toNat % 256 * 256 + s.AL.toNat) }) ∧
    (exec (.writeAL v) s = .next { s with
        AL := v.extractLsb' 0 8, AX := BitVec.ofNat 16 (s.AH.toNat * 256 + v.toNat % 256) }) ∧
    (exec (.writeBH v) s = .next { s with
        BH := v.extractLsb' 0 8, BX := BitVec.ofNat 16 (v.toNat % 256 * 256 + s.BL.toNat) }) ∧
    (exec (.writeBL v) s = .next { s with
        BL := v.extractLsb' 0 8, BX := BitVec.ofNat 16 (s.BH.toNat * 256 + v.toNat % 256) }) ∧
    (exec (.writeCH v) s = .next { s with
        CH := v.extractLsb' 0 8, CX := BitVec.ofNat 16 (v.toNat % 256 * 256 + s.CL.toNat) }) ∧
    (exec (.writeCL v) s = .next { s with
        CL := v.extractLsb' 0 8, CX := BitVec.ofNat 16 (s.CH.toNat * 256 + v.toNat % 256) }) ∧
    (exec (.writeDH v) s = .next { s with
        DH := v.extractLsb' 0 8, DX := BitVec.ofNat 16 (v.toNat % 256 * 256 + s.DL.toNat) }) ∧
    (exec (.writeDL v) s = .next { s with
        DL := v.extractLsb' 0 8, DX := BitVec.ofNat 16 (s.DH.toNat * 256 + v.toNat % 256) })) ∧
  (∀ (p : Pair) (k : HalfKind) (v : Word) (s t : State), s.config.halfWriteMode = .conventional →
    exec (writeOf (.half p k) v) s = .next t → t.Consistent p)

/-! Combined and address/index writes. -/

/-- Rules R75 to R79: each combined write, its word, its result and its frame, in both modes. The pair is consistent
after it. -/
def Obligations.CombinedWrites : Prop :=
  (∀ (s : State) (v : Word),
    (decode (BitVec.ofNat 23 (0x280000 + v.toNat)) = .writeAX v ∧
      exec (.writeAX v) s = .next { s with
        AX := v, AH := v.extractLsb' 8 8, AL := v.extractLsb' 0 8 }) ∧
    (decode (BitVec.ofNat 23 (0x290000 + v.toNat)) = .writeBX v ∧
      exec (.writeBX v) s = .next { s with
        BX := v, BH := v.extractLsb' 8 8, BL := v.extractLsb' 0 8 }) ∧
    (decode (BitVec.ofNat 23 (0x2A0000 + v.toNat)) = .writeCX v ∧
      exec (.writeCX v) s = .next { s with
        CX := v, CH := v.extractLsb' 8 8, CL := v.extractLsb' 0 8 }) ∧
    (decode (BitVec.ofNat 23 (0x2B0000 + v.toNat)) = .writeDX v ∧
      exec (.writeDX v) s = .next { s with
        DX := v, DH := v.extractLsb' 8 8, DL := v.extractLsb' 0 8 })) ∧
  (∀ (p : Pair) (v : Word) (s t : State), exec (writeOf (.combined p) v) s = .next t → t.Consistent p)

/-- Rules R80 to R84: each address/index write, its word, its result and its frame: "no other register is touched". -/
def Obligations.IndexWrites : Prop :=
  ∀ (s : State) (v : Word),
    (decode (BitVec.ofNat 23 (0x2C0000 + v.toNat)) = .writeSP v ∧
      exec (.writeSP v) s = .next { s with SP := v }) ∧
    (decode (BitVec.ofNat 23 (0x2D0000 + v.toNat)) = .writeBP v ∧
      exec (.writeBP v) s = .next { s with BP := v }) ∧
    (decode (BitVec.ofNat 23 (0x2E0000 + v.toNat)) = .writeDI v ∧
      exec (.writeDI v) s = .next { s with DI := v }) ∧
    (decode (BitVec.ofNat 23 (0x2F0000 + v.toNat)) = .writeSI v ∧
      exec (.writeSI v) s = .next { s with SI := v })

/-! Control commands. -/

/-- Rules R85, R86 and R89: the words of IDLE, RSVD and the unrecognised-name write, and that each leaves every state
as it is. -/
def Obligations.IdleReservedAndUnknownWritesChangeNothing : Prop :=
  (∀ (sel : Sel) (v : Word) (s : State),
    exec (.idle sel v) s = .next s ∧ exec (.rsvd sel v) s = .next s ∧ exec (.writeUnknown sel v) s = .next s) ∧
  (∀ w : Cmd, w.toNat ≤ 0x1FFFFF → ∃ sel v, decode w = .idle sel v) ∧
  (∀ w : Cmd, 0x300000 ≤ w.toNat → w.toNat ≤ 0x3FFFFF → ∃ sel v, decode w = .writeUnknown sel v) ∧
  (∀ w : Cmd, 0x600000 ≤ w.toNat → ∃ sel v, decode w = .rsvd sel v)

/-- Rule R88: INIT writes AX, AH and AL from `INIT_AX_VALUE` and nothing else, and its words. With the reference value
302 they are 0x012E, 0x01 and 0x2E. -/
def Obligations.InitWritesOnlyPairA : Prop :=
  (∀ (sel : Sel) (v : Word) (s : State),
    exec (.init sel v) s = .next { s with
      AX := s.config.initAxValue
      AH := s.config.initAxValue.extractLsb' 8 8
      AL := s.config.initAxValue.extractLsb' 0 8 } ∧
    (s.config.initAxValue = 302 →
      exec (.init sel v) s = .next { s with AX := 0x012E, AH := 0x01, AL := 0x2E })) ∧
  (∀ w : Cmd, 0x400000 ≤ w.toNat → w.toNat ≤ 0x5FFFFF → ∃ sel v, decode w = .init sel v)

/-- Rule R62: INIT has the same effect as `WRITE AX, INIT_AX_VALUE`, and keeps its own encoding. -/
def Obligations.InitEqualsTheNamedWriteOfAX : Prop :=
  ∀ (sel : Sel) (v : Word) (s : State),
    exec (.init sel v) s = exec (.writeAX s.config.initAxValue) s ∧
    encode (.init sel v) ≠ encode (.writeAX s.config.initAxValue)

/-! Whole-machine rules. -/

/-- Rule R98: every command is accepted in every state, every step answers a next state, and no element is protected:
each register can be given each value of its width, in every state, by the named write of its name. -/
def Obligations.EveryCommandIsAcceptedInEveryState : Prop :=
  (∀ (i : Instr) (s : State), ∃ t, exec i s = .next t) ∧
  (∀ s : State, ∃ t, step s = .next t) ∧
  (∀ (p : Pair) (k : HalfKind) (b : Byte) (s : State), ∃ v t,
    exec (writeOf (.half p k) v) s = .next t ∧ t.half p k = b) ∧
  (∀ (p : Pair) (w : Word) (s : State), ∃ v t,
    exec (writeOf (.combined p) v) s = .next t ∧ t.combined p = w) ∧
  (∀ (r : IndexReg) (w : Word) (s : State), ∃ v t,
    exec (writeOf (.index r) v) s = .next t ∧ t.index r = w)

/-- Rule R30: a command changes only the registers its row of the table names, no flag and no byte; a step with
`rst = 1` gives every element its construction value. The clauses on `config`, `inputs` and `drawn` speak of fields that
the rule does not know: that they stand in State is the model's choice (log entries 4, 1 and 2). -/
def Obligations.CommandsWriteOnlyWhatTheTableNames : Prop :=
  (∀ (i : Instr) (s t : State), exec i s = .next t →
    (∀ q, q ∉ mayWrite i → t.reg q = s.reg q) ∧ (∀ f, t.flag f = s.flag f) ∧
    (∀ a, t.byteAt a = s.byteAt a) ∧ t.config = s.config ∧ t.inputs = s.inputs ∧ t.drawn = s.drawn) ∧
  (∀ (s t : State) (inp : Input) (l : List Input), s.inputs = inp :: l → inp.rst = true → step s = .next t →
    (∀ q, t.reg q = 0) ∧ (∀ f, t.flag f = false) ∧ (∀ a, a < s.config.memBytes → t.byteAt a = some 0))

/-- Rule R44, its last sentences: the same command twice in a row gives the state that once gives, and what a command
writes depends on no state but, for a half write, on the sibling half (and on the instance's parameters). -/
def Obligations.CommandsAreIdempotent : Prop :=
  (∀ (i : Instr) (s t : State), exec i s = .next t → exec i t = .next t) ∧
  (∀ (i : Instr) (s s' t t' : State), s.config = s'.config →
    (∀ p k v, i = writeOf (.half p k) v → s.half p (sibling k) = s'.half p (sibling k)) →
    exec i s = .next t → exec i s' = .next t' → ∀ q, q ∈ mayWrite i → t.reg q = t'.reg q)

/-- The pairs are isolated from each other and from the address/index registers (from rules R30 and R44): what a
command leaves in a pair depends on that pair alone, and what it leaves in an address/index register on that register
alone. -/
def Obligations.PairsAndIndexRegistersAreIsolated : Prop :=
  ∀ (i : Instr) (s s' t t' : State), s.config = s'.config → exec i s = .next t → exec i s' = .next t' →
    (∀ p, (∀ k, s.half p k = s'.half p k) → s.combined p = s'.combined p →
      (∀ k, t.half p k = t'.half p k) ∧ t.combined p = t'.combined p) ∧
    (∀ r, s.index r = s'.index r → t.index r = t'.index r)

/-- Rule R24: no command writes a flag, and no sequence of commands, from any state, changes one. The AddressSpace,
which no command reaches (rule R39), keeps every byte too. -/
def Obligations.NoCommandSequenceChangesAFlag : Prop :=
  (∀ (i : Instr) (s t : State) (f : FlagName), exec i s = .next t → t.flag f = s.flag f) ∧
  (∀ (l : List Input) (s t : State), (∀ inp ∈ l, inp.rst = false) → runInputs l s = .next t →
    (∀ f, t.flag f = s.flag f) ∧ ∀ a, t.byteAt a = s.byteAt a)

/-- Rules R63 and R113: every output shows its stored element, nothing of what is presented, and together the outputs
fix every register and flag. -/
def Obligations.OutputsShowTheStoredState : Prop :=
  (∀ s : State,
    (s.outputs.ah_o = s.AH ∧ s.outputs.al_o = s.AL ∧ s.outputs.bh_o = s.BH ∧ s.outputs.bl_o = s.BL ∧
     s.outputs.ch_o = s.CH ∧ s.outputs.cl_o = s.CL ∧ s.outputs.dh_o = s.DH ∧ s.outputs.dl_o = s.DL) ∧
    (s.outputs.ax_o = s.AX ∧ s.outputs.bx_o = s.BX ∧ s.outputs.cx_o = s.CX ∧ s.outputs.dx_o = s.DX) ∧
    (s.outputs.sp_o = s.SP ∧ s.outputs.bp_o = s.BP ∧ s.outputs.di_o = s.DI ∧ s.outputs.si_o = s.SI) ∧
    (s.outputs.tf_o = s.TF ∧ s.outputs.df_o = s.DF ∧ s.outputs.if_o = s.IF_ ∧ s.outputs.of_o = s.OF ∧
     s.outputs.sf_o = s.SF ∧ s.outputs.zf_o = s.ZF ∧ s.outputs.af_o = s.AF ∧ s.outputs.pf_o = s.PF ∧
     s.outputs.cf_o = s.CF)) ∧
  (∀ (s : State) (l : List Input), State.outputs { s with inputs := l } = s.outputs) ∧
  (∀ s t : State, s.outputs = t.outputs ↔ (∀ q, s.reg q = t.reg q) ∧ ∀ f, s.flag f = t.flag f)

/-! Reset and boot. -/

/-- Rules R31 and R105: the construction state, and that power-on is it, with the parameters of rules R7 to R9. -/
def Obligations.ConstructionStateIsAllZero : Prop :=
  (∀ c : Config,
    (∀ q, (State.construct c).reg q = 0) ∧ (∀ f, (State.construct c).flag f = false) ∧
    (∀ a, a < c.memBytes → (State.construct c).byteAt a = some 0)) ∧
  State.reset = State.construct { memBytes := 262144, initAxValue := 302, halfWriteMode := .reference }

/-- Rule R118: after one edge with `rst = 1`, or several, the outputs (and every byte) show `Construct`, and the first
command after them is the one of the first edge with `rst = 0`. -/
def Obligations.HeldResetGivesConstruct : Prop :=
  ∀ (rs : List Input) (s : State), rs ≠ [] → (∀ r ∈ rs, r.rst = true) →
    ∃ t, runInputs rs s = .next t ∧ t.outputs = (State.construct s.config).outputs ∧
      (∀ a, t.byteAt a = (State.construct s.config).byteAt a) ∧ t.config = s.config ∧
      ∀ inp : Input, inp.rst = false → runInputs (rs ++ [inp]) s = exec (decode inp.cmd) t

/-- Rule R109: INIT after power-on or after a reset gives `Booted`, in the reference configuration AX = 0x012E,
AH = 0x01 and AL = 0x2E. -/
def Obligations.InitAfterConstructionGivesBooted : Prop :=
  (∀ c : Config, runInputs [{ rst := false, cmd := 0x400000 }] (State.construct c) = .next { State.construct c with
      AX := c.initAxValue
      AH := c.initAxValue.extractLsb' 8 8
      AL := c.initAxValue.extractLsb' 0 8 }) ∧
  (∀ (s : State) (w : Cmd), ∃ t,
    runInputs [{ rst := true, cmd := w }] s = .next t ∧ t.outputs = (State.construct s.config).outputs ∧
    runInputs [{ rst := true, cmd := w }, { rst := false, cmd := 0x400000 }] s
      = .next { t with
          AX := s.config.initAxValue
          AH := s.config.initAxValue.extractLsb' 8 8
          AL := s.config.initAxValue.extractLsb' 0 8 }) ∧
  runInputs [{ rst := false, cmd := 0x400000 }] State.reset
    = .next { State.reset with AX := 0x012E, AH := 0x01, AL := 0x2E }

/-- Rule R114: a command sees every effect of the one before it, and a sequence means the same with IDLE cycles between
its commands as without them. -/
def Obligations.IdleCyclesDoNotMatter : Prop :=
  (∀ (l m : List Input) (s t : State), runInputs l s = .next t → runInputs (l ++ m) s = runInputs m t) ∧
  (∀ (l : List Input) (s : State), runInputs l s = runInputs (l.filter (fun inp => !inp.isIdle)) s)

/-- The block never stops by itself (rule R120): every run over listed inputs, from every state, ends in a state. -/
def Obligations.EveryRunEndsInAState : Prop :=
  ∀ (l : List Input) (s : State), SafeRun l s

/-! Invariants. -/

/-- Rule R17: where `Consistent_x` holds, what leaves it as it was, and that it is no invariant in `REFERENCE` mode. -/
def Obligations.WhereThePairsAreConsistent : Prop :=
  (∀ (c : Config) (p : Pair), (State.construct c).Consistent p) ∧
  (∀ (p : Pair) (v : Word) (s t : State), exec (writeOf (.combined p) v) s = .next t → t.Consistent p) ∧
  (∀ (sel : Sel) (v : Word) (s t : State), exec (.init sel v) s = .next t → t.Consistent .A) ∧
  (∀ (i : Instr) (p : Pair) (s t : State), (∀ k v, i ≠ writeOf (.half p k) v) → s.Consistent p →
    exec i s = .next t → t.Consistent p) ∧
  (∀ (p : Pair) (k : HalfKind) (v : Word) (s t : State), s.config.halfWriteMode = .conventional →
    exec (writeOf (.half p k) v) s = .next t → t.Consistent p) ∧
  (∀ s : State, Reachable s → s.config.halfWriteMode = .conventional → ∀ p, s.Consistent p) ∧
  (∀ (i : Instr) (p : Pair) (s t : State),
    .combined p ∉ mayWrite i → exec i s = .next t → (t.Consistent p ↔ s.Consistent p)) ∧
  (∃ s : State, Reachable s ∧ s.config = Config.reference ∧ ¬ s.Consistent .B)

/-- In `CONVENTIONAL` mode every step keeps all four pairs consistent (rule R17). -/
def Obligations.ConventionalStepKeepsThePairsConsistent : Prop :=
  ∀ s t : State, s.config.halfWriteMode = .conventional → (∀ p, s.Consistent p) → step s = .next t →
    t.config.halfWriteMode = .conventional ∧ ∀ p, t.Consistent p

/-- Every step keeps "every flag is false and every byte is zero" (rules R24 and R38, step by step). -/
def Obligations.StepKeepsFlagsClearAndMemoryZero : Prop :=
  ∀ s t : State, s.FlagsClear → s.MemoryZero → step s = .next t → t.FlagsClear ∧ t.MemoryZero

/-- Rules R25 and R38: in every state the block can reach every flag is false and every byte of the AddressSpace, whose
length is the capacity, is zero. -/
def Obligations.ReachableFlagsAreClearAndMemoryIsZero : Prop :=
  (∀ c : Config, (State.construct c).FlagsClear) ∧
  (∀ s : State, Reachable s →
    s.FlagsClear ∧ ∀ a, s.byteAt a = if a < s.config.memBytes then some 0 else none)

/-- Every step keeps the memory in its canonical form, inside the AddressSpace (log entry 7, the model's form). -/
def Obligations.StepKeepsTheMemoryWellFormed : Prop :=
  ∀ s t : State, s.MemoryWf → step s = .next t → t.MemoryWf

/-- No step changes the instance's parameters (rules R7 and R28: "fixed for the life of an instance"). -/
def Obligations.StepKeepsTheConfiguration : Prop :=
  ∀ s t : State, step s = .next t → t.config = s.config

/-- The construction state, and so State.reset, meets the invariants above: flags, bytes and pairs from rule R31. The
`MemoryWf` clauses speak of the model's own form of the memory (log entry 7, the model's choice). -/
def Obligations.ConstructionStateMeetsTheInvariants : Prop :=
  (∀ c : Config, (State.construct c).FlagsClear ∧ (State.construct c).MemoryZero ∧ (State.construct c).MemoryWf ∧
    ∀ p, (State.construct c).Consistent p) ∧
  State.reset.FlagsClear ∧ State.reset.MemoryZero ∧ State.reset.MemoryWf ∧ ∀ p, State.reset.Consistent p
end

