-- ==== Sys2Proof/Laws/Encoding.lean ====
section
/-! SUPPORT. Laws/Encoding.lean: the fields of a command word and the tables of rules R52 and R53, each with its
inverse. -/

namespace Sys2Proof

open Sys2Proof.Machine

/-! Fields as numbers. -/

theorem opField_toNat (w : Cmd) : (opField w).toNat = w.toNat / 2 ^ 21 := by
  simp only [opField, BitVec.extractLsb'_toNat, Nat.shiftRight_eq_div_pow]
  have := w.isLt
  omega

theorem selField_toNat (w : Cmd) : (selField w).toNat = w.toNat / 2 ^ 16 % 2 ^ 5 := by
  simp only [selField, BitVec.extractLsb'_toNat, Nat.shiftRight_eq_div_pow]

theorem valueField_toNat (w : Cmd) : (valueField w).toNat = w.toNat % 2 ^ 16 := by
  simp only [valueField, BitVec.extractLsb'_toNat, Nat.shiftRight_zero]

theorem append_toNat {m n : Nat} (a : BitVec m) (b : BitVec n) : (a ++ b).toNat = a.toNat * 2 ^ n + b.toNat := by
  rw [BitVec.toNat_append, ← Nat.shiftLeft_add_eq_or_of_lt b.isLt, Nat.shiftLeft_eq]

/-- `cmd = op * 2^21 + sel * 2^16 + value` (rule R51). -/
theorem cmdWord_toNat (op : BitVec 2) (sel : Sel) (v : Word) :
    (cmdWord op sel v).toNat = op.toNat * 2 ^ 21 + sel.toNat * 2 ^ 16 + v.toNat := by
  have h : (cmdWord op sel v).toNat = ((op ++ sel) ++ v).toNat := rfl
  rw [h, append_toNat, append_toNat]
  omega

theorem opField_cmdWord (op : BitVec 2) (sel : Sel) (v : Word) : opField (cmdWord op sel v) = op := by
  apply BitVec.eq_of_toNat_eq
  rw [opField_toNat, cmdWord_toNat]
  have := sel.isLt
  have := v.isLt
  omega

theorem selField_cmdWord (op : BitVec 2) (sel : Sel) (v : Word) : selField (cmdWord op sel v) = sel := by
  apply BitVec.eq_of_toNat_eq
  rw [selField_toNat, cmdWord_toNat]
  have := sel.isLt
  have := v.isLt
  omega

theorem valueField_cmdWord (op : BitVec 2) (sel : Sel) (v : Word) : valueField (cmdWord op sel v) = v := by
  apply BitVec.eq_of_toNat_eq
  rw [valueField_toNat, cmdWord_toNat]
  have := v.isLt
  omega

/-- A word is the word of its own three fields (rule R51). -/
theorem cmdWord_fields (w : Cmd) : cmdWord (opField w) (selField w) (valueField w) = w := by
  apply BitVec.eq_of_toNat_eq
  rw [cmdWord_toNat, opField_toNat, selField_toNat, valueField_toNat]
  omega

/-! The tables. -/

theorem opOfBits_opBits (o : Op) : opOfBits (opBits o) = o := by cases o <;> rfl

theorem opBits_opOfBits (b : BitVec 2) : opBits (opOfBits b) = b := by
  revert b
  decide

theorem regOfSel_selOfReg (r : RegName) : regOfSel (selOfReg r) = some r := by
  rcases r with ⟨p, k⟩ | p | r
  · cases p <;> cases k <;> rfl
  · cases p <;> rfl
  · cases r <;> rfl

/-- A selector names a register, whose code it is, or is one of the unrecognised codes (rules R53, R55). -/
theorem regOfSel_cases (sel : Sel) :
    (∃ r, regOfSel sel = some r ∧ selOfReg r = sel ∧ sel.getLsbD 4 = false) ∨
    (regOfSel sel = none ∧ sel.getLsbD 4 = true) := by
  by_cases h : sel.getLsbD 4 = true
  · refine .inr ⟨?_, h⟩
    revert sel
    decide
  · have key : ∀ x : Sel, x.getLsbD 4 = false → (regOfSel x).map selOfReg = some x := by decide
    have e := key sel (by simpa using h)
    cases hr : regOfSel sel with
    | none => simp [hr] at e
    | some r => exact .inl ⟨r, rfl, by simpa [hr] using e, by simpa using h⟩

/-- A named write has operation WRITE, its name's selector and its value. -/
theorem writeOf_fields (r : RegName) (v : Word) :
    (writeOf r v).op = .write ∧ (writeOf r v).sel = selOfReg r ∧ (writeOf r v).value = v := by
  rcases r with ⟨p, k⟩ | p | r
  · cases p <;> cases k <;> exact ⟨rfl, rfl, rfl⟩
  · cases p <;> exact ⟨rfl, rfl, rfl⟩
  · cases r <;> exact ⟨rfl, rfl, rfl⟩

/-- Decode of a word given by its fields (rule R58). -/
theorem decode_cmdWord (op : BitVec 2) (sel : Sel) (v : Word) :
    decode (cmdWord op sel v) =
      match opOfBits op with
      | .idle => .idle sel v
      | .write => decodeWrite sel v
      | .init => .init sel v
      | .rsvd => .rsvd sel v := by
  cases h : opOfBits op <;> simp only [decode, opField_cmdWord, selField_cmdWord, valueField_cmdWord, h]

/-- The WRITE operation at the selector of a register name is that name's write. -/
theorem decodeWrite_selOfReg (r : RegName) (v : Word) : decodeWrite (selOfReg r) v = writeOf r v := by
  simp only [decodeWrite, regOfSel_selOfReg]

/-- The operation of a word given as a number (rule R52). -/
theorem opOfBits_opField_of_div {w : Cmd} {o : Op} (h : w.toNat / 2 ^ 21 = (opBits o).toNat) :
    opOfBits (opField w) = o := by
  have e : opField w = opBits o := BitVec.eq_of_toNat_eq (by rw [opField_toNat, h])
  rw [e, opOfBits_opBits]

/-! Masks: a row's mask covers fields that stand above the value. -/

/-- A word agrees with a row on the top `23 - k` bits when it does as a number. -/
theorem and_mask_eq_iff (w m p : Cmd) (k : Nat) (hm : m = BitVec.allOnes 23 <<< k) (hp : p.toNat % 2 ^ k = 0) :
    w &&& m = p ↔ w.toNat / 2 ^ k = p.toNat / 2 ^ k := by
  subst hm
  constructor
  · rintro rfl
    rw [← Nat.shiftRight_eq_div_pow, ← Nat.shiftRight_eq_div_pow]
    apply Nat.eq_of_testBit_eq
    intro j
    simp only [Nat.testBit_shiftRight, BitVec.toNat_and, Nat.testBit_and, BitVec.testBit_toNat,
      BitVec.getLsbD_shiftLeft, BitVec.getLsbD_allOnes]
    by_cases h : k + j < 23
    · have hj : j < 23 := by omega
      simp [h, hj]
    · have hw : w.getLsbD (k + j) = false := BitVec.getLsbD_of_ge w _ (by omega)
      simp [hw]
  · intro h
    apply BitVec.eq_of_getLsbD_eq
    intro j hj
    have hb : ∀ x : Cmd, x.getLsbD j = (x.toNat / 2 ^ k).testBit (j - k) ∨ j < k := by
      intro x
      by_cases hjk : j < k
      · exact .inr hjk
      · left
        rw [← Nat.shiftRight_eq_div_pow, Nat.testBit_shiftRight, Nat.add_sub_cancel' (by omega)]
        exact BitVec.testBit_toNat x
    simp only [BitVec.getLsbD_and, BitVec.getLsbD_shiftLeft, BitVec.getLsbD_allOnes]
    by_cases hjk : j < k
    · have hz : p.getLsbD j = (p.toNat % 2 ^ k).testBit j := by
        rw [Nat.testBit_mod_two_pow, BitVec.testBit_toNat]
        simp [hjk]
      rw [hz, hp]
      simp [hjk]
    · have h1 := (hb w).resolve_right hjk
      have h2 := (hb p).resolve_right hjk
      have : j - k < 23 := by omega
      rw [h1, h2, h]
      simp [hj, hjk, this]

end Sys2Proof
end

