-- ==== Sys2Proof/Laws/State.lean ====
section
/-! SUPPORT. Laws/State.lean: what each accessor gives after each update of State, one lemma per accessor and update,
and that two states with the same accessors are one state. -/

namespace Sys2Proof.Machine

/-! After a write of a half. -/

@[simp] theorem State.half_setHalf (s : State) (p q : Pair) (k j : HalfKind) (b : Byte) :
    (s.setHalf p k b).half q j = if p = q ∧ k = j then b else s.half q j := by
  cases p <;> cases k <;> cases q <;> cases j <;> rfl

@[simp] theorem State.combined_setHalf (s : State) (p : Pair) (k : HalfKind) (b : Byte) (q : Pair) :
    (s.setHalf p k b).combined q = s.combined q := by
  cases p <;> cases k <;> cases q <;> rfl

@[simp] theorem State.index_setHalf (s : State) (p : Pair) (k : HalfKind) (b : Byte) (q : IndexReg) :
    (s.setHalf p k b).index q = s.index q := by
  cases p <;> cases k <;> cases q <;> rfl

@[simp] theorem State.flag_setHalf (s : State) (p : Pair) (k : HalfKind) (b : Byte) (f : FlagName) :
    (s.setHalf p k b).flag f = s.flag f := by
  cases p <;> cases k <;> cases f <;> rfl

@[simp] theorem State.mem_setHalf (s : State) (p : Pair) (k : HalfKind) (b : Byte) :
    (s.setHalf p k b).mem = s.mem := by
  cases p <;> cases k <;> rfl

@[simp] theorem State.config_setHalf (s : State) (p : Pair) (k : HalfKind) (b : Byte) :
    (s.setHalf p k b).config = s.config := by
  cases p <;> cases k <;> rfl

@[simp] theorem State.inputs_setHalf (s : State) (p : Pair) (k : HalfKind) (b : Byte) :
    (s.setHalf p k b).inputs = s.inputs := by
  cases p <;> cases k <;> rfl

@[simp] theorem State.drawn_setHalf (s : State) (p : Pair) (k : HalfKind) (b : Byte) :
    (s.setHalf p k b).drawn = s.drawn := by
  cases p <;> cases k <;> rfl

/-! After a write of a combined register. -/

@[simp] theorem State.combined_setCombined (s : State) (p q : Pair) (v : Word) :
    (s.setCombined p v).combined q = if p = q then v else s.combined q := by
  cases p <;> cases q <;> rfl

@[simp] theorem State.half_setCombined (s : State) (p : Pair) (v : Word) (q : Pair) (j : HalfKind) :
    (s.setCombined p v).half q j = s.half q j := by
  cases p <;> cases q <;> cases j <;> rfl

@[simp] theorem State.index_setCombined (s : State) (p : Pair) (v : Word) (q : IndexReg) :
    (s.setCombined p v).index q = s.index q := by
  cases p <;> cases q <;> rfl

@[simp] theorem State.flag_setCombined (s : State) (p : Pair) (v : Word) (f : FlagName) :
    (s.setCombined p v).flag f = s.flag f := by
  cases p <;> cases f <;> rfl

@[simp] theorem State.mem_setCombined (s : State) (p : Pair) (v : Word) :
    (s.setCombined p v).mem = s.mem := by
  cases p <;> rfl

@[simp] theorem State.config_setCombined (s : State) (p : Pair) (v : Word) :
    (s.setCombined p v).config = s.config := by
  cases p <;> rfl

@[simp] theorem State.inputs_setCombined (s : State) (p : Pair) (v : Word) :
    (s.setCombined p v).inputs = s.inputs := by
  cases p <;> rfl

@[simp] theorem State.drawn_setCombined (s : State) (p : Pair) (v : Word) :
    (s.setCombined p v).drawn = s.drawn := by
  cases p <;> rfl

/-! After a write of an address/index register. -/

@[simp] theorem State.index_setIndex (s : State) (r q : IndexReg) (v : Word) :
    (s.setIndex r v).index q = if r = q then v else s.index q := by
  cases r <;> cases q <;> rfl

@[simp] theorem State.half_setIndex (s : State) (r : IndexReg) (v : Word) (q : Pair) (j : HalfKind) :
    (s.setIndex r v).half q j = s.half q j := by
  cases r <;> cases q <;> cases j <;> rfl

@[simp] theorem State.combined_setIndex (s : State) (r : IndexReg) (v : Word) (q : Pair) :
    (s.setIndex r v).combined q = s.combined q := by
  cases r <;> cases q <;> rfl

@[simp] theorem State.flag_setIndex (s : State) (r : IndexReg) (v : Word) (f : FlagName) :
    (s.setIndex r v).flag f = s.flag f := by
  cases r <;> cases f <;> rfl

@[simp] theorem State.mem_setIndex (s : State) (r : IndexReg) (v : Word) :
    (s.setIndex r v).mem = s.mem := by
  cases r <;> rfl

@[simp] theorem State.config_setIndex (s : State) (r : IndexReg) (v : Word) :
    (s.setIndex r v).config = s.config := by
  cases r <;> rfl

@[simp] theorem State.inputs_setIndex (s : State) (r : IndexReg) (v : Word) :
    (s.setIndex r v).inputs = s.inputs := by
  cases r <;> rfl

@[simp] theorem State.drawn_setIndex (s : State) (r : IndexReg) (v : Word) :
    (s.setIndex r v).drawn = s.drawn := by
  cases r <;> rfl

/-! After a change of the inputs to come. -/

@[simp] theorem State.half_withInputs (s : State) (l : List Input) (q : Pair) (j : HalfKind) :
    (State.half { s with inputs := l } q j) = s.half q j := by
  cases q <;> cases j <;> rfl

@[simp] theorem State.combined_withInputs (s : State) (l : List Input) (q : Pair) :
    (State.combined { s with inputs := l } q) = s.combined q := by
  cases q <;> rfl

@[simp] theorem State.index_withInputs (s : State) (l : List Input) (q : IndexReg) :
    (State.index { s with inputs := l } q) = s.index q := by
  cases q <;> rfl

@[simp] theorem State.flag_withInputs (s : State) (l : List Input) (f : FlagName) :
    (State.flag { s with inputs := l } f) = s.flag f := by
  cases f <;> rfl

/-! After a reset (rule R106). -/

@[simp] theorem State.half_applyReset (s : State) (q : Pair) (j : HalfKind) :
    (applyReset s).half q j = 0 := by
  cases q <;> cases j <;> rfl

@[simp] theorem State.combined_applyReset (s : State) (q : Pair) :
    (applyReset s).combined q = 0 := by
  cases q <;> rfl

@[simp] theorem State.index_applyReset (s : State) (q : IndexReg) :
    (applyReset s).index q = 0 := by
  cases q <;> rfl

@[simp] theorem State.flag_applyReset (s : State) (f : FlagName) :
    (applyReset s).flag f = false := by
  cases f <;> rfl

@[simp] theorem State.mem_applyReset (s : State) :
    (applyReset s).mem = [] := rfl

@[simp] theorem State.config_applyReset (s : State) :
    (applyReset s).config = s.config := rfl

@[simp] theorem State.inputs_applyReset (s : State) :
    (applyReset s).inputs = s.inputs := rfl

@[simp] theorem State.drawn_applyReset (s : State) :
    (applyReset s).drawn = s.drawn := rfl

/-- Two states that agree on every accessor are one state (the record of rule R20 holds nothing else). -/
theorem State.eq_of_accessors {s t : State} (hh : ∀ p k, s.half p k = t.half p k)
    (hc : ∀ p, s.combined p = t.combined p) (hi : ∀ r, s.index r = t.index r) (hf : ∀ f, s.flag f = t.flag f)
    (hm : s.mem = t.mem) (hg : s.config = t.config) (hn : s.inputs = t.inputs) (hd : s.drawn = t.drawn) : s = t := by
  cases s
  cases t
  simp only [State.mk.injEq]
  exact ⟨hh .A .high, hh .A .low, hh .B .high, hh .B .low, hh .C .high, hh .C .low, hh .D .high, hh .D .low,
    hc .A, hc .B, hc .C, hc .D, hi .SP, hi .BP, hi .DI, hi .SI,
    hf .TF, hf .DF, hf .IF, hf .OF, hf .SF, hf .ZF, hf .AF, hf .PF, hf .CF, hm, hg, hn, hd⟩

end Sys2Proof.Machine
end

