-- ==== Sys2Proof/Laws/Ops.lean ====
section
/-! SUPPORT. Laws/Ops.lean: what each shared operation does, said once. Later proofs cite these lemmas and do not unfold
the operations. -/

namespace Sys2Proof.Machine

/-! The parts of a value. -/

theorem hiByte_toNat (v : Word) : (hiByte v).toNat = v.toNat / 256 := by
  simp only [hiByte, BitVec.extractLsb'_toNat, Nat.shiftRight_eq_div_pow]
  have := v.isLt
  omega

theorem loByte_toNat (v : Word) : (loByte v).toNat = v.toNat % 256 := by
  simp only [loByte, BitVec.extractLsb'_toNat, Nat.shiftRight_zero]

theorem concat_toNat (h l : Byte) : (concat h l).toNat = h.toNat * 256 + l.toNat := by
  have := l.isLt
  rw [concat, BitVec.toNat_append, ← Nat.shiftLeft_add_eq_or_of_lt this, Nat.shiftLeft_eq]

theorem scaledSum_toNat (u b : Byte) : (scaledSum u b).toNat = u.toNat * 16 + b.toNat := by
  have := u.isLt
  have := b.isLt
  simp only [scaledSum, BitVec.toNat_ofNat]
  omega

theorem concat_hiByte_loByte (v : Word) : concat (hiByte v) (loByte v) = v := by
  apply BitVec.eq_of_toNat_eq
  rw [concat_toNat, hiByte_toNat, loByte_toNat]
  omega

/-! The write policies. -/

theorem halfWrite_of_reference {s : State} (h : s.config.halfWriteMode = .reference) (p : Pair) (k : HalfKind)
    (v : Word) : halfWrite p k v s = halfWriteReference p k v s := by
  simp only [halfWrite, h]

theorem halfWrite_of_conventional {s : State} (h : s.config.halfWriteMode = .conventional) (p : Pair) (k : HalfKind)
    (v : Word) : halfWrite p k v s = halfWriteConventional p k v s := by
  simp only [halfWrite, h]

/-- A half write sets its half and its owning combined register to two values, whatever the mode. -/
theorem halfWrite_shape (p : Pair) (k : HalfKind) (v : Word) (s : State) :
    ∃ b w, halfWrite p k v s = (s.setHalf p k b).setCombined p w := by
  cases h : s.config.halfWriteMode with
  | reference => exact ⟨_, _, halfWrite_of_reference h p k v⟩
  | conventional => exact ⟨_, _, halfWrite_of_conventional h p k v⟩

theorem sibling_ne (k : HalfKind) : sibling k ≠ k := by cases k <;> decide

theorem sibling_sibling (k : HalfKind) : sibling (sibling k) = k := by cases k <;> rfl

/-- The registers `setRegister` may write (rule R30). -/
def touched : Option RegName → List RegName
  | some (.half p k) => [.half p k, .combined p]
  | some (.combined p) => [.combined p, .half p .high, .half p .low]
  | some (.index r) => [.index r]
  | none => []

/-- Frame of the named write: a register outside the written ones keeps its value (rule R30). -/
theorem reg_setRegister_of_not_mem (n : Option RegName) (v : Word) (s : State) (q : RegName)
    (h : q ∉ touched n) : (setRegister n v s).reg q = s.reg q := by
  rcases n with _ | ⟨p, k⟩ | p | r
  · rfl
  · obtain ⟨b, w, e⟩ := halfWrite_shape p k v s
    simp only [setRegister, e]
    cases q with
    | half q j =>
      have hn : ¬(p = q ∧ k = j) := by rintro ⟨rfl, rfl⟩; simp [touched] at h
      simp [State.reg, hn]
    | combined q =>
      have hn : ¬p = q := by rintro rfl; simp [touched] at h
      simp [State.reg, hn]
    | index q => simp [State.reg]
  · simp only [setRegister, combinedWrite]
    cases q with
    | half q j =>
      have hn : ¬p = q := by rintro rfl; cases j <;> simp [touched] at h
      simp [State.reg, hn]
    | combined q =>
      have hn : ¬p = q := by rintro rfl; simp [touched] at h
      simp [State.reg, hn]
    | index q => simp [State.reg]
  · simp only [setRegister, indexWrite]
    cases q with
    | half q j => simp [State.reg]
    | combined q => simp [State.reg]
    | index q =>
      have hn : ¬r = q := by rintro rfl; simp [touched] at h
      simp [State.reg, hn]

@[simp] theorem flag_setRegister (n : Option RegName) (v : Word) (s : State) (f : FlagName) :
    (setRegister n v s).flag f = s.flag f := by
  rcases n with _ | ⟨p, k⟩ | p | r
  · rfl
  · obtain ⟨b, w, e⟩ := halfWrite_shape p k v s
    simp [setRegister, e]
  · simp [setRegister, combinedWrite]
  · simp [setRegister, indexWrite]

@[simp] theorem mem_setRegister (n : Option RegName) (v : Word) (s : State) : (setRegister n v s).mem = s.mem := by
  rcases n with _ | ⟨p, k⟩ | p | r
  · rfl
  · obtain ⟨b, w, e⟩ := halfWrite_shape p k v s
    simp [setRegister, e]
  · simp [setRegister, combinedWrite]
  · simp [setRegister, indexWrite]

@[simp] theorem config_setRegister (n : Option RegName) (v : Word) (s : State) :
    (setRegister n v s).config = s.config := by
  rcases n with _ | ⟨p, k⟩ | p | r
  · rfl
  · obtain ⟨b, w, e⟩ := halfWrite_shape p k v s
    simp [setRegister, e]
  · simp [setRegister, combinedWrite]
  · simp [setRegister, indexWrite]

@[simp] theorem inputs_setRegister (n : Option RegName) (v : Word) (s : State) :
    (setRegister n v s).inputs = s.inputs := by
  rcases n with _ | ⟨p, k⟩ | p | r
  · rfl
  · obtain ⟨b, w, e⟩ := halfWrite_shape p k v s
    simp [setRegister, e]
  · simp [setRegister, combinedWrite]
  · simp [setRegister, indexWrite]

@[simp] theorem drawn_setRegister (n : Option RegName) (v : Word) (s : State) :
    (setRegister n v s).drawn = s.drawn := by
  rcases n with _ | ⟨p, k⟩ | p | r
  · rfl
  · obtain ⟨b, w, e⟩ := halfWrite_shape p k v s
    simp [setRegister, e]
  · simp [setRegister, combinedWrite]
  · simp [setRegister, indexWrite]

theorem byteAt_setRegister (n : Option RegName) (v : Word) (s : State) (a : Nat) :
    (setRegister n v s).byteAt a = s.byteAt a := by
  simp [State.byteAt]

/-- A named write and a change of the inputs to come do not see each other. -/
theorem setRegister_withInputs (n : Option RegName) (v : Word) (s : State) (l : List Input) :
    setRegister n v { s with inputs := l } = { setRegister n v s with inputs := l } := by
  rcases n with _ | ⟨p, k⟩ | p | r
  · rfl
  · cases h : s.config.halfWriteMode <;> cases p <;> cases k <;>
      simp only [setRegister, halfWrite, h] <;> rfl
  · cases p <;> rfl
  · cases r <;> rfl

/-! The pairs (rule R17). -/

/-- A combined write leaves its pair consistent (rule R75). -/
theorem consistent_combinedWrite (p : Pair) (v : Word) (s : State) : (combinedWrite p v s).Consistent p := by
  simp [State.Consistent, combinedWrite, concat_hiByte_loByte]

/-- A half write in `CONVENTIONAL` mode leaves its pair consistent (rule R74). -/
theorem consistent_halfWriteConventional (p : Pair) (k : HalfKind) (v : Word) (s : State) :
    (halfWriteConventional p k v s).Consistent p := by
  cases k <;> simp [State.Consistent, halfWriteConventional]

/-! The memory. -/

theorem Memory.read_of_wf_zero {m : Memory} (h : m.wf) : m = [] ↔ ∀ a, Memory.read m a = 0 := by
  constructor
  · rintro rfl a
    rfl
  · intro hz
    cases m with
    | nil => rfl
    | cons c m =>
      have := hz c.1
      simp only [Memory.read, if_true] at this
      exact absurd this (h.2 c (List.mem_cons_self ..))

/-- The named write keeps the memory's form (it leaves the memory alone). -/
theorem memoryWf_setRegister (n : Option RegName) (v : Word) {s : State} (h : s.MemoryWf) :
    (setRegister n v s).MemoryWf := by
  simpa only [State.MemoryWf, mem_setRegister, config_setRegister] using h

/-- The reset leaves the memory in its form. -/
theorem memoryWf_applyReset (s : State) : (applyReset s).MemoryWf := by
  simp [State.MemoryWf, Memory.wf]

/-- Taking an input changes no element of the block. -/
theorem takeInput_block (s : State) :
    ∃ l d, (takeInput s).2 = { s with inputs := l, drawn := d } := by
  unfold takeInput
  split
  · exact ⟨_, s.drawn, rfl⟩
  · rename_i h
    exact ⟨s.inputs, s.drawn + 1, by rw [h]⟩

theorem takeInput_cons (s : State) (inp : Input) (l : List Input) :
    takeInput { s with inputs := inp :: l } = (inp, { s with inputs := l }) := rfl

end Sys2Proof.Machine
end

