-- ==== Sys2Proof/Laws/PerInstr.lean ====
section
/-! SUPPORT. Laws/PerInstr.lean: the statements made of every instruction, one lemma per constructor. -/

namespace Sys2Proof.Laws.RowMatch

open Sys2Proof Sys2Proof.Machine

/-- A well-formed instruction's word has the match of its row of opcode_table.json under the row's mask. -/
def Statement (i : Instr) : Prop :=
  i.WellFormed → ∃ row, opcodeTable[i.row]? = some row ∧ encode i &&& row.mask = row.pattern

/-- Row `n` fixes the bits from `k` up, at the value `p`. -/
def fixes (n k p : Nat) : Bool :=
  (opcodeTable[n]?).any (fun row => row.mask == BitVec.allOnes 23 <<< k && row.pattern.toNat == p * 2 ^ k)

/-- An instruction whose word has the value its row fixes agrees with its row. -/
theorem of_fixes {n k p : Nat} (h : fixes n k p = true) {i : Instr} (hr : i.row = n)
    (hw : (encode i).toNat / 2 ^ k = p) : Statement i := by
  intro _
  simp only [fixes, Option.any_eq_true_iff_get, Bool.and_eq_true, beq_iff_eq] at h
  obtain ⟨hs, hm, hp⟩ := h
  refine ⟨_, hr ▸ (Option.some_get hs).symm, (and_mask_eq_iff _ _ _ k hm (by rw [hp, Nat.mul_mod_left])).2 ?_⟩
  rw [hw, hp, Nat.mul_div_cancel _ (Nat.two_pow_pos k)]

/-- The rows of the 16 named writes fix op = 01 and their selector (rule R53). -/
theorem write_rows : ∀ c : Fin 16, fixes (c + 1) 16 (32 + c) = true := by decide

/-- A named write agrees with its row. -/
theorem of_selector (c : Fin 16) {i : Instr} (hr : i.row = c + 1) (ho : i.op = .write) (hs : i.sel.toNat = c) :
    Statement i := by
  refine of_fixes (write_rows c) hr ?_
  have hb : (opBits .write).toNat = 1 := rfl
  have := i.value.isLt
  rw [encode, cmdWord_toNat, ho, hb, hs]
  omega

/-- An instruction whose row fixes the operation alone agrees with its row. -/
theorem of_op (n : Nat) {i : Instr} (h : fixes n 21 (opBits i.op).toNat = true) (hr : i.row = n) : Statement i := by
  refine of_fixes h hr ?_
  have := i.sel.isLt
  have := i.value.isLt
  rw [encode, cmdWord_toNat]
  omega

theorem idle (sel : Sel) (v : Word) : Statement (.idle sel v) :=
  of_op 0 (show fixes 0 21 (opBits .idle).toNat = true by decide) rfl

theorem writeAH (v : Word) : Statement (.writeAH v) := of_selector 0 rfl rfl rfl

theorem writeAL (v : Word) : Statement (.writeAL v) := of_selector 1 rfl rfl rfl

theorem writeBH (v : Word) : Statement (.writeBH v) := of_selector 2 rfl rfl rfl

theorem writeBL (v : Word) : Statement (.writeBL v) := of_selector 3 rfl rfl rfl

theorem writeCH (v : Word) : Statement (.writeCH v) := of_selector 4 rfl rfl rfl

theorem writeCL (v : Word) : Statement (.writeCL v) := of_selector 5 rfl rfl rfl

theorem writeDH (v : Word) : Statement (.writeDH v) := of_selector 6 rfl rfl rfl

theorem writeDL (v : Word) : Statement (.writeDL v) := of_selector 7 rfl rfl rfl

theorem writeAX (v : Word) : Statement (.writeAX v) := of_selector 8 rfl rfl rfl

theorem writeBX (v : Word) : Statement (.writeBX v) := of_selector 9 rfl rfl rfl

theorem writeCX (v : Word) : Statement (.writeCX v) := of_selector 10 rfl rfl rfl

theorem writeDX (v : Word) : Statement (.writeDX v) := of_selector 11 rfl rfl rfl

theorem writeSP (v : Word) : Statement (.writeSP v) := of_selector 12 rfl rfl rfl

theorem writeBP (v : Word) : Statement (.writeBP v) := of_selector 13 rfl rfl rfl

theorem writeDI (v : Word) : Statement (.writeDI v) := of_selector 14 rfl rfl rfl

theorem writeSI (v : Word) : Statement (.writeSI v) := of_selector 15 rfl rfl rfl

theorem writeUnknown (sel : Sel) (v : Word) : Statement (.writeUnknown sel v) := by
  intro hw
  have key : ∀ x : Sel, x.getLsbD 4 = true → 16 ≤ x.toNat := by decide
  have hs : 16 ≤ sel.toNat := key sel hw
  have hb : (opBits (Instr.writeUnknown sel v).op).toNat = 1 := rfl
  have := sel.isLt
  have := v.isLt
  refine of_fixes (show fixes 17 20 3 = true by decide) rfl ?_ hw
  rw [encode, cmdWord_toNat, hb]
  simp only [Instr.sel, Instr.value]
  omega

theorem init (sel : Sel) (v : Word) : Statement (.init sel v) :=
  of_op 18 (show fixes 18 21 (opBits .init).toNat = true by decide) rfl

theorem rsvd (sel : Sel) (v : Word) : Statement (.rsvd sel v) :=
  of_op 19 (show fixes 19 21 (opBits .rsvd).toNat = true by decide) rfl

end Sys2Proof.Laws.RowMatch
end

