-- ==== Sys2Proof/Laws/Step.lean ====
section
/-! SUPPORT. Laws/Step.lean: everything `exec` and `step` can do when they answer a next state, said once. -/

namespace Sys2Proof.Machine

/-- A command that answers a next state left the state as it was, or made one named write (rules R30, R88). -/
theorem exec_next_cases {i : Instr} {s t : State} (h : exec i s = .next t) :
    (t = s ∧ mayWrite i = []) ∨
    (∃ n v, t = setRegister (some n) v s ∧ touched (some n) = mayWrite i) := by
  cases i <;> cases h <;> first
    | exact .inl ⟨rfl, rfl⟩
    | exact .inr ⟨_, _, rfl, rfl⟩

/-- A step that answers a next state was a reset, or ran the decoded command (rule R106). -/
theorem step_next_cases {s t : State} (h : step s = .next t) :
    ((takeInput s).1.rst = true ∧ t = applyReset (takeInput s).2) ∨
    ((takeInput s).1.rst = false ∧ exec (decode (takeInput s).1.cmd) (takeInput s).2 = .next t) := by
  unfold step at h
  split at h
  · exact .inl ⟨by assumption, by cases h; rfl⟩
  · rename_i hr
    exact .inr ⟨by simpa using hr, h⟩

/-- No command sees the inputs to come. -/
theorem exec_withInputs {i : Instr} {s t : State} (h : exec i s = .next t) (l : List Input) :
    exec i { s with inputs := l } = .next { t with inputs := l } := by
  cases i <;> cases h <;> first
    | rfl
    | exact congrArg Host.Outcome.next (setRegister_withInputs _ _ _ _)

/-- A reset does not see the inputs to come. -/
theorem applyReset_withInputs (s : State) (l : List Input) :
    applyReset { s with inputs := l } = { applyReset s with inputs := l } := rfl

/-- The meaning of a named write, by its name (rule R3). -/
theorem exec_writeOf (r : RegName) (v : Word) (s : State) :
    exec (writeOf r v) s = .next (setRegister (some r) v s) := by
  rcases r with ⟨p, k⟩ | p | r
  · cases p <;> cases k <;> rfl
  · cases p <;> rfl
  · cases r <;> rfl

/-- The step for a listed input. -/
theorem step_cons (s : State) (inp : Input) (l : List Input) :
    step { s with inputs := inp :: l } =
      if inp.rst then .next (applyReset { s with inputs := l }) else exec (decode inp.cmd) { s with inputs := l } := rfl

/-- A run whose first step answers a next state goes on from it. -/
theorem run_succ_of_next {k : Nat} {s t : State} (h : step s = .next t) :
    Host.Core.run core (k + 1) s = Host.Core.run core k t := by
  have e : ∀ (M : Host.Core) (x y : M.State), M.step x = .next y →
      Host.Core.run M (k + 1) x = Host.Core.run M k y := by
    intro M x y hx
    simp only [Host.Core.run, hx]
  exact e core s t h

/-- A run over no input leaves no input to come, and nothing else changed. -/
theorem runInputs_nil (s : State) : runInputs [] s = .next { s with inputs := [] } := rfl

end Sys2Proof.Machine
end

