-- ==== Sys2Proof/Tests/Slice0.lean ====
section
/-! SUPPORT. Tests/Slice0.lean: checks on fixed values. Every expected result is a row of 95_test_vectors.md or a worked
example of the instruction's rule; the words are written out from the table of rule R53. Then, for every statement
with hypotheses, a witness that meets them. -/

namespace Sys2Proof.Tests

open Sys2Proof Sys2Proof.Machine

/-- The state after one command word, by `step` on a listed input. -/
def after (w : Cmd) (s : State) : Option State :=
  match step { s with inputs := { rst := false, cmd := w } :: s.inputs } with
  | .next t => some t
  | .fault _ => none
  | .refused _ => none

/-- The state after one edge with `rst = 1`. -/
def afterReset (w : Cmd) (s : State) : Option State :=
  match step { s with inputs := { rst := true, cmd := w } :: s.inputs } with
  | .next t => some t
  | .fault _ => none
  | .refused _ => none

def pairA (t : State) : Byte × Byte × Word := (t.AH, t.AL, t.AX)
def pairB (t : State) : Byte × Byte × Word := (t.BH, t.BL, t.BX)
def pairC (t : State) : Byte × Byte × Word := (t.CH, t.CL, t.CX)
def pairD (t : State) : Byte × Byte × Word := (t.DH, t.DL, t.DX)

/-- `Construct` in `CONVENTIONAL` mode. -/
def conventional : State := State.construct { Config.reference with halfWriteMode := .conventional }

/-- The state after INIT (rule R109). -/
def booted : State := { State.reset with AH := 0x01, AL := 0x2E, AX := 0x012E }

/-! Well-formedness: the one check, with a term it refuses. -/

theorem test_wellFormed_refuses_named_selector : (Instr.writeUnknown 15 0).wellFormed = false := by decide
theorem test_wellFormed_accepts_unknown_selector : (Instr.writeUnknown 16 0).wellFormed = true := by decide
theorem test_textWellFormed_refuses_code_15 : (TextCommand.writeCode 15 0).wellFormed = false := by decide

/-! Decoding: op (2 bits), sel (5 bits), value (16 bits), each word written out bit by bit (rules R51 to R53). -/

theorem test_decode_idle : decode 0b00_10101_1100110000110011 = .idle 0b10101 0xCC33 := by decide
theorem test_decode_writeAH : decode 0b01_00000_0001001000110100 = .writeAH 0x1234 := by decide
theorem test_decode_writeAL : decode 0b01_00001_1000000000000001 = .writeAL 0x8001 := by decide
theorem test_decode_writeBH : decode 0b01_00010_1111111100000000 = .writeBH 0xFF00 := by decide
theorem test_decode_writeBL : decode 0b01_00011_0000000001010110 = .writeBL 0x0056 := by decide
theorem test_decode_writeCH : decode 0b01_00100_1000000000000000 = .writeCH 0x8000 := by decide
theorem test_decode_writeCL : decode 0b01_00101_0111111101111111 = .writeCL 0x7F7F := by decide
theorem test_decode_writeDH : decode 0b01_00110_1111111111111111 = .writeDH 0xFFFF := by decide
theorem test_decode_writeDL : decode 0b01_00111_0000000100000000 = .writeDL 0x0100 := by decide
theorem test_decode_writeAX : decode 0b01_01000_0000000100101110 = .writeAX 302 := by decide
theorem test_decode_writeBX : decode 0b01_01001_0001001000110100 = .writeBX 0x1234 := by decide
theorem test_decode_writeCX : decode 0b01_01010_1010010110100101 = .writeCX 0xA5A5 := by decide
theorem test_decode_writeDX : decode 0b01_01011_0000000011111111 = .writeDX 0x00FF := by decide
theorem test_decode_writeSP : decode 0b01_01100_1111111111111110 = .writeSP 0xFFFE := by decide
theorem test_decode_writeBP : decode 0b01_01101_0000000000000001 = .writeBP 0x0001 := by decide
theorem test_decode_writeDI : decode 0b01_01110_0000000000000000 = .writeDI 0x0000 := by decide
theorem test_decode_writeSI : decode 0b01_01111_1000000000000000 = .writeSI 0x8000 := by decide
theorem test_decode_writeUnknown : decode 0b01_10000_1111111111111111 = .writeUnknown 16 0xFFFF := by decide
theorem test_decode_init : decode 0b10_11111_1111111111111111 = .init 31 0xFFFF := by decide
theorem test_decode_rsvd : decode 0b11_00000_0000000000000000 = .rsvd 0 0 := by decide
theorem test_encode_writeSI : encode (.writeSI 0x8000) = 0x2F8000 := by decide
theorem test_encode_canonical_unknown : encode (Instr.canonical (.writeUnknown 16 7)) = 0x3F0000 := by decide
theorem test_decodeTableWord_reads_row : decodeTableWord 24 0x2AA5A5 = some (.writeCX 0xA5A5) := by decide
theorem test_decodeTableWord_rejects_bit_23 : decodeTableWord 24 0x800000 = none := by decide
theorem test_table_has_20_rows : opcodeTable.length = 20 := by decide
theorem test_text_write : (TextCommand.write "BX" 0x1234).input.cmd = 0x291234 := by decide
theorem test_text_lower_case_is_unknown : (TextCommand.write "bx" 0).input.cmd = 0x3F0000 := by decide
theorem test_minAddrBits_reference : Config.reference.minAddrBits = 18 := by decide

/-! Half-register writes, `REFERENCE` mode (95_test_vectors.md section 2.1, section 1, rules R66 to R73). -/

theorem test_writeAH_sibling_255 :
    (after 0x201234 { State.reset with AL := 0xFF }).map pairA = some (0x12, 0xFF, 0x021F) := by decide
theorem test_writeAH_same_half_rewrites_AX :
    (after 0x200500 { State.reset with AH := 0x05, AL := 0x06, AX := 0x0506 }).map pairA
      = some (0x05, 0x06, 0x0056) := by decide
theorem test_writeAL_scales_the_low_half : (after 0x213400 booted).map pairA = some (0x01, 0x34, 0x0341) := by decide
theorem test_writeAL_largest :
    (after 0x21FFFF { State.reset with AH := 0xFF, AX := 0x0FF0 }).map pairA = some (0xFF, 0xFF, 0x10EF) := by decide
theorem test_writeBH :
    (after 0x220100 { State.reset with BH := 0xAB, BL := 0xCD, BX := 0xABCD }).map pairB
      = some (0x01, 0xCD, 0x00DD) := by decide
theorem test_writeBL_source_scenario :
    (after 0x230056 { State.reset with BH := 0x12, BL := 0x34, BX := 0x1234 }).map pairB
      = some (0x12, 0x00, 0x0012) := by decide
theorem test_writeCH_carries :
    (after 0x247F00 { State.reset with CL := 0x80 }).map pairC = some (0x7F, 0x80, 0x0870) := by decide
theorem test_writeCL : (after 0x252000 { State.reset with CH := 0x01 }).map pairC = some (0x01, 0x20, 0x0201) := by decide
theorem test_writeDH : (after 0x260100 { State.reset with DL := 0xFF }).map pairD = some (0x01, 0xFF, 0x010F) := by decide
theorem test_writeDL : (after 0x270000 { State.reset with DH := 0xFF }).map pairD = some (0xFF, 0x00, 0x00FF) := by decide

/-! Half-register writes, `CONVENTIONAL` mode (section 2.2). -/

theorem test_conventional_writeAH :
    (after 0x2000AB { conventional with AH := 0x01, AL := 0x2E, AX := 0x012E }).map pairA
      = some (0xAB, 0x2E, 0xAB2E) := by decide
theorem test_conventional_writeBL :
    (after 0x230056 { conventional with BH := 0x12, BL := 0x34, BX := 0x1234 }).map pairB
      = some (0x12, 0x56, 0x1256) := by decide
theorem test_conventional_writeDL :
    (after 0x270000 { conventional with DH := 0xFF, DL := 0xFF, DX := 0xFFFF }).map pairD
      = some (0xFF, 0x00, 0xFF00) := by decide

/-! Combined and address/index writes (sections 2.3 and 2.4). -/

theorem test_writeAX : (after 0x28FFFF State.reset).map pairA = some (0xFF, 0xFF, 0xFFFF) := by decide
theorem test_writeBX_repairs :
    (after 0x291234 { State.reset with BH := 0x12, BX := 0x0012 }).map pairB = some (0x12, 0x34, 0x1234) := by decide
theorem test_writeCX :
    (after 0x2A00FF { State.reset with CH := 0x80, CL := 0x7F, CX := 0x0870 }).map pairC
      = some (0x00, 0xFF, 0x00FF) := by decide
theorem test_writeDX :
    (after 0x2BFF00 { State.reset with DH := 0x11, DL := 0x22, DX := 0x1122 }).map pairD
      = some (0xFF, 0x00, 0xFF00) := by decide
theorem test_writeSP_odd :
    after 0x2C0001 { State.reset with SP := 0x1000 } = some { State.reset with SP := 0x0001 } := by decide
theorem test_writeBP : after 0x2DFFFF State.reset = some { State.reset with BP := 0xFFFF } := by decide
theorem test_writeDI : after 0x2E0000 { State.reset with DI := 0x1234 } = some State.reset := by decide
theorem test_writeSI : after 0x2F8000 State.reset = some { State.reset with SI := 0x8000 } := by decide

/-! Control commands and reset (sections 2.5 and 2.6). -/

theorem test_idle_ignores_fields : after 0x1FFFFF booted = some booted := by decide
theorem test_writeUnknown : after 0x30FFFF booted = some booted := by decide
theorem test_init_from_construct : after 0x400000 State.reset = some booted := by decide
theorem test_init_keeps_BX :
    after 0x5FFFFF { State.reset with BH := 0x12, BL := 0x34, BX := 0x1234 }
      = some { booted with BH := 0x12, BL := 0x34, BX := 0x1234 } := by decide
theorem test_rsvd : after 0x7FFFFF booted = some booted := by decide
theorem test_reset_wins : afterReset 0x291111 { State.reset with BX := 0x0012, BH := 0x12 } = some State.reset := by
  decide
theorem test_reset_bytes : State.reset.byteAt 262143 = some 0 ∧ State.reset.byteAt 262144 = none := by decide
theorem test_memory_read_listed : Memory.read [(3, 7), (9, 1)] 9 = 1 ∧ Memory.read [(3, 7), (9, 1)] 4 = 0 := by decide

/-! Witnesses: for each statement with hypotheses, values that meet them together. -/

theorem witness_StepResetsOrRunsTheDecodedCommand :
    ∃ (s t : State) (i j : Input) (l : List Input), s.inputs = i :: l ∧ i.rst = true ∧ t.inputs = j :: l ∧
      j.rst = false :=
  ⟨{ State.reset with inputs := [⟨true, 0⟩] }, { State.reset with inputs := [⟨false, 0⟩] }, ⟨true, 0⟩, ⟨false, 0⟩, [],
    by decide⟩

theorem witness_StepTakesOneListedInput : ∃ (s t : State) (inp : Input) (l : List Input),
    s.inputs = inp :: l ∧ step s = .next t :=
  ⟨{ booted with inputs := [⟨true, 0⟩, ⟨false, 0⟩] }, _, ⟨true, 0⟩, [⟨false, 0⟩], rfl, rfl⟩

theorem witness_StepWithNoListedInputTakesAFreeInput : State.reset.inputs = [] := by decide

theorem witness_WithFetchWordRunsTheTableWord : 0x7FFFFF < 2 ^ 24 ∧ 0x7FFFFF < 2 ^ 23 := by decide

theorem witness_DecodeOfEncodeIsTheInstruction :
    (Instr.writeUnknown 16 0xFFFF).WellFormed ∧ (Instr.writeUnknown 31 0).WellFormed ∧ (Instr.writeAH 0).WellFormed := by
  decide

theorem witness_EncodingMatchesItsTableRow : (Instr.writeUnknown 16 0).WellFormed ∧ (Instr.rsvd 31 0).WellFormed := by
  decide

theorem witness_EveryWordDecodesToExactlyOneRow :
    (16 : Sel).getLsbD 4 = true ∧ (31 : Sel).getLsbD 4 = true ∧
      opcodeTable[17]? = some ⟨"WRITE_UNKNOWN", 0x300000, 0x700000⟩ ∧ (0x3F0000 : Cmd) &&& 0x700000 = 0x300000 := by decide

theorem witness_SelectorCodesFollowTheNameList : 16 ≤ (16 : Sel).toNat ∧ 16 ≤ (31 : Sel).toNat := by decide

theorem witness_SelectorBitsGiveThePolicy :
    (16 : Sel).getLsbD 4 = true ∧ (0 : Sel).extractLsb' 3 2 = 0b00 ∧ (7 : Sel).extractLsb' 3 2 = 0b00 ∧
      (8 : Sel).extractLsb' 2 3 = 0b010 ∧ (11 : Sel).extractLsb' 2 3 = 0b010 ∧
      (12 : Sel).extractLsb' 2 3 = 0b011 ∧ (15 : Sel).extractLsb' 2 3 = 0b011 := by decide

theorem witness_IgnoredFieldsDoNotMatter :
    State.reset.config.halfWriteMode = .reference ∧ (0x1200 : Word).toNat / 256 = (0x12FF : Word).toNat / 256 ∧
      conventional.config.halfWriteMode = .conventional ∧ (0x0034 : Word).toNat % 256 = (0xFF34 : Word).toNat % 256 := by
  decide

theorem witness_ReservedEncodingsChangeNothing :
    0x600000 ≤ (0x600000 : Cmd).toNat ∧ 0x600000 ≤ (0x7FFFFF : Cmd).toNat ∧
      0x300000 ≤ (0x300000 : Cmd).toNat ∧ (0x3FFFFF : Cmd).toNat ≤ 0x3FFFFF := by decide

theorem witness_TextFormGivesTheSpecWords : 16 ≤ (16 : Sel).toNat ∧ ∀ r, "FLAGS" ≠ regSpelling r := by
  refine ⟨by decide, ?_⟩
  rintro (⟨p, k⟩ | p | r)
  · cases p <;> cases k <;> decide
  · cases p <;> decide
  · cases r <;> decide

theorem witness_HalfWritesInReferenceMode : booted.config.halfWriteMode = .reference := by decide

theorem witness_ReferenceHalfWritePolicy :
    ({ State.reset with DH := 0xFF, DL := 0xFF } : State).config.halfWriteMode = .reference := by decide

theorem witness_ReferenceHalfWriteConsequences :
    ({ State.reset with AH := 0x0F, AX := 0x0F00 } : State).config.halfWriteMode = .reference ∧
      (0xFF00 : Word).toNat / 256 = 17 * ({ State.reset with AH := 0x0F, AX := 0x0F00 } : State).AH.toNat := by decide

theorem witness_HalfWritesInConventionalMode : ∃ t, conventional.config.halfWriteMode = .conventional ∧
    exec (writeOf (.half .A .low) 0x00FF) conventional = .next t :=
  ⟨_, by decide, rfl⟩

theorem witness_CombinedWrites : ∃ t, exec (writeOf (.combined .D) 0xFFFF) booted = .next t := ⟨_, rfl⟩

theorem witness_IdleReservedAndUnknownWritesChangeNothing :
    (0x000000 : Cmd).toNat ≤ 0x1FFFFF ∧ (0x1FFFFF : Cmd).toNat ≤ 0x1FFFFF ∧ 0x300000 ≤ (0x300000 : Cmd).toNat ∧
      (0x3FFFFF : Cmd).toNat ≤ 0x3FFFFF ∧ 0x600000 ≤ (0x600000 : Cmd).toNat := by decide

theorem witness_InitWritesOnlyPairA :
    State.reset.config.initAxValue = 302 ∧ 0x400000 ≤ (0x400000 : Cmd).toNat ∧ (0x5FFFFF : Cmd).toNat ≤ 0x5FFFFF := by
  decide

theorem witness_CommandsWriteOnlyWhatTheTableNames : ∃ (s t u : State) (inp : Input),
    exec (.writeAX 7) s = .next u ∧ RegName.index .SP ∉ mayWrite (.writeAX 7) ∧
      s.inputs = [inp] ∧ inp.rst = true ∧ step s = .next t ∧ 262143 < s.config.memBytes :=
  ⟨{ booted with inputs := [⟨true, 0x400000⟩] }, _, _, ⟨true, 0x400000⟩, rfl, by decide, rfl, rfl, rfl, by decide⟩

theorem witness_CommandsAreIdempotent : ∃ (t t' : State),
    booted.config = ({ booted with AL := 5 } : State).config ∧
      (∀ p k v, Instr.writeAX 7 = writeOf (.half p k) v →
        booted.half p (sibling k) = ({ booted with AL := 5 } : State).half p (sibling k)) ∧
      exec (.writeAX 7) booted = .next t ∧ exec (.writeAX 7) { booted with AL := 5 } = .next t' ∧
      RegName.half .A .low ∈ mayWrite (.writeAX 7) := by
  refine ⟨_, _, rfl, ?_, rfl, rfl, by decide⟩
  intro p k v h
  cases p <;> cases k <;> cases h

theorem witness_CommandsAreIdempotent_half : ∃ (t t' : State),
    (∀ p k v, Instr.writeAH 7 = writeOf (.half p k) v →
        booted.half p (sibling k) = ({ booted with AX := 5 } : State).half p (sibling k)) ∧
      exec (.writeAH 7) booted = .next t ∧ exec (.writeAH 7) { booted with AX := 5 } = .next t' := by
  refine ⟨_, _, ?_, rfl, rfl⟩
  intro p k v h
  cases p <;> cases k <;> first | (cases h; rfl) | cases h

theorem witness_PairsAndIndexRegistersAreIsolated : ∃ (t t' : State),
    booted.config = ({ booted with BX := 5, SI := 2 } : State).config ∧ exec (.writeAH 7) booted = .next t ∧
      exec (.writeAH 7) { booted with BX := 5, SI := 2 } = .next t' ∧
      (∀ k, booted.half .A k = ({ booted with BX := 5, SI := 2 } : State).half .A k) ∧
      booted.combined .A = ({ booted with BX := 5, SI := 2 } : State).combined .A ∧
      booted.index .SP = ({ booted with BX := 5, SI := 2 } : State).index .SP :=
  ⟨_, _, rfl, rfl, rfl, fun k => by cases k <;> rfl, rfl, rfl⟩

theorem witness_NoCommandSequenceChangesAFlag : ∃ t : State,
    (∀ inp ∈ ([⟨false, 0x291234⟩, ⟨false, 0x230056⟩] : List Input), inp.rst = false) ∧
      exec (.writeAX 7) booted = .next t ∧
      runInputs [⟨false, 0x291234⟩, ⟨false, 0x230056⟩] { booted with ZF := true }
        = .next { booted with ZF := true, BH := 0x12, BL := 0x00, BX := 0x0012 } :=
  ⟨_, by decide, rfl, rfl⟩

theorem witness_ConstructionStateIsAllZero : 0 < Config.reference.memBytes ∧ 262143 < Config.reference.memBytes := by
  decide

theorem witness_HeldResetGivesConstruct : ∃ (rs : List Input) (inp : Input),
    rs ≠ [] ∧ (∀ r ∈ rs, r.rst = true) ∧ inp.rst = false :=
  ⟨[⟨true, 0x400000⟩, ⟨true, 0⟩], ⟨false, 0x2D0001⟩, by decide⟩

theorem witness_IdleCyclesDoNotMatter : ∃ t, runInputs [⟨false, 0x400000⟩, ⟨false, 0⟩] State.reset = .next t := ⟨_, rfl⟩

theorem witness_WhereThePairsAreConsistent_commands : ∃ (t u : State),
    exec (writeOf (.combined .B) 9) booted = .next t ∧ exec (.init 0 0) booted = .next u ∧
      (∀ k v, Instr.init 0 0 ≠ writeOf (.half .B k) v) ∧ booted.Consistent .B ∧
      RegName.combined .B ∉ mayWrite (.init 0 0) := by
  refine ⟨_, _, rfl, rfl, ?_, by decide, by decide⟩
  intro k v h
  cases k <;> cases h

theorem witness_WhereThePairsAreConsistent_conventional : ∃ (t : State),
    conventional.config.halfWriteMode = .conventional ∧ exec (writeOf (.half .C .high) 9) conventional = .next t ∧
      Reachable conventional :=
  ⟨_, by decide, rfl, .construct _ []⟩

theorem witness_ConventionalStepKeepsThePairsConsistent : ∃ (s t : State),
    s.config.halfWriteMode = .conventional ∧ (∀ p, s.Consistent p) ∧ step s = .next t :=
  ⟨{ conventional with inputs := [⟨false, 0x2000AB⟩] }, _, rfl, fun p => by cases p <;> decide, rfl⟩

theorem witness_StepKeepsFlagsClearAndMemoryZero : ∃ (s t : State), s.FlagsClear ∧ s.MemoryZero ∧ step s = .next t := by
  refine ⟨{ State.reset with inputs := [⟨false, 0x2000AB⟩] }, _, fun f => by cases f <;> rfl, ?_, rfl⟩
  intro a b h
  simp only [State.byteAt, State.reset, State.construct, Memory.read] at h
  split at h
  · exact (Option.some.inj h).symm
  · cases h

theorem witness_ReachableFlagsAreClearAndMemoryIsZero : Reachable State.reset := .construct _ []

theorem witness_StepKeepsTheMemoryWellFormed : ∃ (s t : State), s.MemoryWf ∧ s.mem ≠ [] ∧ step s = .next t :=
  ⟨{ State.reset with mem := [(3, 7), (262143, 1)], inputs := [⟨false, 0x2000AB⟩] }, _, by decide, by decide, rfl⟩

theorem witness_StepKeepsTheConfiguration : ∃ t : State, step { State.reset with inputs := [⟨true, 0⟩] } = .next t :=
  ⟨_, rfl⟩

end Sys2Proof.Tests
end

namespace Sys2Proof.Machine

/-! The parameters of an instance are fixed for its life (rules R7 and R28). -/

theorem config_takeInput (s : State) : (takeInput s).2.config = s.config := by
  obtain ⟨l, d, e⟩ := takeInput_block s
  rw [e]

theorem config_of_exec_next {i : Instr} {s t : State} (h : exec i s = .next t) : t.config = s.config := by
  obtain ⟨rfl, -⟩ | ⟨n, v, rfl, -⟩ := exec_next_cases h
  · rfl
  · exact config_setRegister (some n) v s

/-- Settles O41: taking the input, the reset and every command each keep the parameters, and a step is made of these. -/
theorem stepKeepsTheConfiguration : Obligations.StepKeepsTheConfiguration := by
  intro s t h
  obtain ⟨-, rfl⟩ | ⟨-, hexec⟩ := step_next_cases h
  · exact (State.config_applyReset _).trans (config_takeInput s)
  · exact (config_of_exec_next hexec).trans (config_takeInput s)

end Sys2Proof.Machine

/-! The state family: frames, the pairs and the invariants (10_state.md, 20_memory.md). -/

namespace Sys2Proof.Machine

/-! The construction state (rule R31). -/

@[simp] theorem State.half_construct (c : Config) (p : Pair) (k : HalfKind) : (State.construct c).half p k = 0 := by
  cases p <;> cases k <;> rfl

@[simp] theorem State.combined_construct (c : Config) (p : Pair) : (State.construct c).combined p = 0 := by
  cases p <;> rfl

@[simp] theorem State.index_construct (c : Config) (r : IndexReg) : (State.construct c).index r = 0 := by
  cases r <;> rfl

@[simp] theorem State.flag_construct (c : Config) (f : FlagName) : (State.construct c).flag f = false := by
  cases f <;> rfl

@[simp] theorem State.reg_construct (c : Config) (q : RegName) : (State.construct c).reg q = 0 := by
  cases q <;> simp [State.reg]

theorem State.byteAt_construct (c : Config) (a : Nat) :
    (State.construct c).byteAt a = if a < c.memBytes then some 0 else none := rfl

theorem consistent_construct (c : Config) (p : Pair) : (State.construct c).Consistent p := by
  simp only [State.Consistent, State.combined_construct, State.half_construct]
  rfl

/-! The reset (rule R106). -/

@[simp] theorem State.reg_applyReset (s : State) (q : RegName) : (applyReset s).reg q = 0 := by
  cases q <;> simp [State.reg]

theorem State.byteAt_applyReset (s : State) (a : Nat) :
    (applyReset s).byteAt a = if a < s.config.memBytes then some 0 else none := rfl

theorem consistent_applyReset (s : State) (p : Pair) : (applyReset s).Consistent p := by
  simp only [State.Consistent, State.combined_applyReset, State.half_applyReset]
  rfl

/-! Taking an input leaves the block alone. -/

theorem takeInput_of_inputs {s : State} {inp : Input} {l : List Input} (h : s.inputs = inp :: l) :
    takeInput s = (inp, { s with inputs := l }) := by
  simp only [takeInput, h]

@[simp] theorem half_takeInput (s : State) (p : Pair) (k : HalfKind) : (takeInput s).2.half p k = s.half p k := by
  obtain ⟨l, d, e⟩ := takeInput_block s
  rw [e]
  cases p <;> cases k <;> rfl

@[simp] theorem combined_takeInput (s : State) (p : Pair) : (takeInput s).2.combined p = s.combined p := by
  obtain ⟨l, d, e⟩ := takeInput_block s
  rw [e]
  cases p <;> rfl

@[simp] theorem flag_takeInput (s : State) (f : FlagName) : (takeInput s).2.flag f = s.flag f := by
  obtain ⟨l, d, e⟩ := takeInput_block s
  rw [e]
  cases f <;> rfl

theorem byteAt_takeInput (s : State) (a : Nat) : (takeInput s).2.byteAt a = s.byteAt a := by
  obtain ⟨l, d, e⟩ := takeInput_block s
  rw [e]
  rfl

theorem consistent_takeInput_iff (s : State) (p : Pair) : (takeInput s).2.Consistent p ↔ s.Consistent p := by
  simp only [State.Consistent, combined_takeInput, half_takeInput]

/-! What a command is, for every state at once. -/

theorem exec_init (sel : Sel) (v : Word) (s : State) :
    exec (.init sel v) s = .next (setRegister (some (.combined .A)) s.config.initAxValue s) := rfl

/-- A command leaves every state as it is, is a named write, or is INIT (the table of rule R30). -/
theorem instr_cases (i : Instr) :
    (∀ s, exec i s = .next s) ∨ (∃ r v, i = writeOf r v) ∨ (∃ sel v, i = .init sel v) := by
  cases i with
  | idle | writeUnknown | rsvd => exact .inl fun _ => rfl
  | init sel v => exact .inr (.inr ⟨sel, v, rfl⟩)
  | writeAH v => exact .inr (.inl ⟨.half .A .high, v, rfl⟩)
  | writeAL v => exact .inr (.inl ⟨.half .A .low, v, rfl⟩)
  | writeBH v => exact .inr (.inl ⟨.half .B .high, v, rfl⟩)
  | writeBL v => exact .inr (.inl ⟨.half .B .low, v, rfl⟩)
  | writeCH v => exact .inr (.inl ⟨.half .C .high, v, rfl⟩)
  | writeCL v => exact .inr (.inl ⟨.half .C .low, v, rfl⟩)
  | writeDH v => exact .inr (.inl ⟨.half .D .high, v, rfl⟩)
  | writeDL v => exact .inr (.inl ⟨.half .D .low, v, rfl⟩)
  | writeAX v => exact .inr (.inl ⟨.combined .A, v, rfl⟩)
  | writeBX v => exact .inr (.inl ⟨.combined .B, v, rfl⟩)
  | writeCX v => exact .inr (.inl ⟨.combined .C, v, rfl⟩)
  | writeDX v => exact .inr (.inl ⟨.combined .D, v, rfl⟩)
  | writeSP v => exact .inr (.inl ⟨.index .SP, v, rfl⟩)
  | writeBP v => exact .inr (.inl ⟨.index .BP, v, rfl⟩)
  | writeDI v => exact .inr (.inl ⟨.index .DI, v, rfl⟩)
  | writeSI v => exact .inr (.inl ⟨.index .SI, v, rfl⟩)

theorem exists_exec_next (i : Instr) (s : State) : ∃ t, exec i s = .next t := by
  obtain h | ⟨r, v, rfl⟩ | ⟨sel, v, rfl⟩ := instr_cases i
  · exact ⟨s, h s⟩
  · exact ⟨_, exec_writeOf r v s⟩
  · exact ⟨_, exec_init sel v s⟩

/-! The frame of a command (rules R24, R30, R39). -/

section
variable {i : Instr} {s t : State}

/-- A command is one named write, of the registers its row names, or of the unrecognised name where its row is empty. -/
theorem setRegister_of_exec_next (h : exec i s = .next t) :
    ∃ n v, t = setRegister n v s ∧ touched n = mayWrite i := by
  obtain ⟨rfl, hnone⟩ | ⟨n, v, ht, hn⟩ := exec_next_cases h
  · exact ⟨none, 0, rfl, hnone.symm⟩
  · exact ⟨some n, v, ht, hn⟩

theorem reg_of_exec_next (h : exec i s = .next t) {q : RegName} (hq : q ∉ mayWrite i) : t.reg q = s.reg q := by
  obtain ⟨n, v, rfl, hn⟩ := setRegister_of_exec_next h
  exact reg_setRegister_of_not_mem n v s q (hn ▸ hq)

theorem flag_of_exec_next (h : exec i s = .next t) (f : FlagName) : t.flag f = s.flag f := by
  obtain ⟨n, v, rfl, -⟩ := setRegister_of_exec_next h
  exact flag_setRegister n v s f

theorem byteAt_of_exec_next (h : exec i s = .next t) (a : Nat) : t.byteAt a = s.byteAt a := by
  obtain ⟨n, v, rfl, -⟩ := setRegister_of_exec_next h
  exact byteAt_setRegister n v s a

theorem inputs_of_exec_next (h : exec i s = .next t) : t.inputs = s.inputs := by
  obtain ⟨n, v, rfl, -⟩ := setRegister_of_exec_next h
  exact inputs_setRegister n v s

theorem drawn_of_exec_next (h : exec i s = .next t) : t.drawn = s.drawn := by
  obtain ⟨n, v, rfl, -⟩ := setRegister_of_exec_next h
  exact drawn_setRegister n v s

end

/-! The pairs under a named write (rule R17). -/

/-- A named write that may write a half may write the combined register of its pair. -/
theorem combined_mem_touched_of_half_mem {n : Option RegName} {p : Pair} {k : HalfKind}
    (h : .half p k ∈ touched n) : .combined p ∈ touched n := by
  rcases n with _ | ⟨q, j⟩ | q | r
  · simp [touched] at h
  · obtain ⟨rfl, rfl⟩ : p = q ∧ k = j := by simpa [touched] using h
    simp [touched]
  · obtain rfl : p = q := by cases k <;> simpa [touched] using h
    simp [touched]
  · simp [touched] at h

/-- A named write that may write a pair's combined register is a write of the pair. -/
theorem eq_of_combined_mem_touched {n : Option RegName} {p : Pair} (h : .combined p ∈ touched n) :
    (∃ k, n = some (.half p k)) ∨ n = some (.combined p) := by
  rcases n with _ | ⟨q, j⟩ | q | r
  · simp [touched] at h
  · obtain rfl : p = q := by simpa [touched] using h
    exact .inl ⟨j, rfl⟩
  · obtain rfl : p = q := by simpa [touched] using h
    exact .inr rfl
  · simp [touched] at h

/-- A named write that does not write the pair leaves the aliasing relation of the pair as it was. -/
theorem consistent_setRegister_iff {n : Option RegName} {p : Pair} (hn : .combined p ∉ touched n) (v : Word)
    (s : State) : (setRegister n v s).Consistent p ↔ s.Consistent p := by
  have hcombined : (setRegister n v s).combined p = s.combined p :=
    BitVec.eq_of_toNat_eq (reg_setRegister_of_not_mem n v s (.combined p) hn)
  have hhalf : ∀ k, (setRegister n v s).half p k = s.half p k := fun k =>
    BitVec.eq_of_toNat_eq
      (reg_setRegister_of_not_mem n v s (.half p k) (mt combined_mem_touched_of_half_mem hn))
  simp only [State.Consistent, hcombined, hhalf]

theorem consistent_halfWrite_of_conventional {s : State} (hs : s.config.halfWriteMode = .conventional) (p : Pair)
    (k : HalfKind) (v : Word) : (halfWrite p k v s).Consistent p := by
  rw [halfWrite_of_conventional hs]
  exact consistent_halfWriteConventional p k v s

/-- A named write keeps a pair consistent, unless it is a half write of that pair in `REFERENCE` mode. -/
theorem consistent_setRegister {n : Option RegName} {p : Pair} {s : State}
    (hn : (∀ k, n ≠ some (.half p k)) ∨ s.config.halfWriteMode = .conventional) (v : Word) (h : s.Consistent p) :
    (setRegister n v s).Consistent p := by
  by_cases hp : .combined p ∈ touched n
  · obtain ⟨k, rfl⟩ | rfl := eq_of_combined_mem_touched hp
    · exact consistent_halfWrite_of_conventional (hn.resolve_left fun hne => hne k rfl) p k v
    · exact consistent_combinedWrite p v s
  · exact (consistent_setRegister_iff hp v s).2 h

/-! The pairs under a command. -/

theorem eq_setRegister_of_exec_writeOf {r : RegName} {v : Word} {s t : State}
    (h : exec (writeOf r v) s = .next t) : t = setRegister (some r) v s := by
  rw [exec_writeOf] at h
  exact (Host.Outcome.next.inj h).symm

theorem consistent_of_exec_writeOf_combined {p : Pair} {v : Word} {s t : State}
    (h : exec (writeOf (.combined p) v) s = .next t) : t.Consistent p := by
  rw [eq_setRegister_of_exec_writeOf h]
  exact consistent_combinedWrite p v s

theorem consistent_of_exec_writeOf_half {p : Pair} {k : HalfKind} {v : Word} {s t : State}
    (hs : s.config.halfWriteMode = .conventional) (h : exec (writeOf (.half p k) v) s = .next t) :
    t.Consistent p := by
  rw [eq_setRegister_of_exec_writeOf h]
  exact consistent_halfWrite_of_conventional hs p k v

theorem consistent_A_of_exec_init {sel : Sel} {v : Word} {s t : State} (h : exec (.init sel v) s = .next t) :
    t.Consistent .A := by
  cases h
  exact consistent_combinedWrite .A s.config.initAxValue s

/-- A command keeps a pair consistent, unless it is a half write of that pair in `REFERENCE` mode. -/
theorem consistent_of_exec_next {i : Instr} {p : Pair} {s t : State}
    (hi : (∀ k v, i ≠ writeOf (.half p k) v) ∨ s.config.halfWriteMode = .conventional) (hs : s.Consistent p)
    (h : exec i s = .next t) : t.Consistent p := by
  obtain hnop | ⟨r, v, rfl⟩ | ⟨sel, v, rfl⟩ := instr_cases i
  · obtain rfl : s = t := Host.Outcome.next.inj ((hnop s).symm.trans h)
    exact hs
  · rw [eq_setRegister_of_exec_writeOf h]
    refine consistent_setRegister (hi.imp_left fun hne k e => ?_) v hs
    exact hne k v (by rw [Option.some.inj e])
  · cases h
    exact consistent_setRegister (.inl fun k => by simp) s.config.initAxValue hs

theorem consistent_iff_of_exec_next {i : Instr} {p : Pair} {s t : State} (hp : .combined p ∉ mayWrite i)
    (h : exec i s = .next t) : t.Consistent p ↔ s.Consistent p := by
  obtain ⟨n, v, rfl, hn⟩ := setRegister_of_exec_next h
  exact consistent_setRegister_iff (hn ▸ hp) v s

/-! The pairs along a run. -/

theorem consistent_of_step_next {s t : State} (hm : s.config.halfWriteMode = .conventional)
    (hs : ∀ p, s.Consistent p) (h : step s = .next t) (p : Pair) : t.Consistent p := by
  obtain ⟨-, rfl⟩ | ⟨-, hexec⟩ := step_next_cases h
  · exact consistent_applyReset _ p
  · refine consistent_of_exec_next (.inr ?_) ((consistent_takeInput_iff s p).2 (hs p)) hexec
    rw [config_takeInput, hm]

theorem consistent_of_reachable {s : State} (h : Reachable s) (hm : s.config.halfWriteMode = .conventional) :
    ∀ p, s.Consistent p := by
  induction h with
  | construct c l =>
    intro p
    simpa only [State.Consistent, State.combined_withInputs, State.half_withInputs] using consistent_construct c p
  | @step s t _ hst ih =>
    have hms : s.config.halfWriteMode = .conventional := by rwa [← stepKeepsTheConfiguration s t hst]
    exact consistent_of_step_next hms (ih hms) hst

/-- After `WRITE BH, 0x1200` in the reference configuration: BH = 0x12, BL = 0, BX = 0x0120 (rule R68). -/
def inconsistentB : State := { State.reset with BH := 0x12, BX := 0x0120 }

theorem reachable_inconsistentB : Reachable inconsistentB :=
  .step (.construct Config.reference [⟨false, 0x221200⟩]) rfl

theorem not_consistent_inconsistentB : ¬ inconsistentB.Consistent .B := by decide

/-- Settles O36: each clause is a lemma above; the reachable clause is by induction on the run, and `WRITE BH, 0x1200`
from the construction state breaks pair B in `REFERENCE` mode. -/
theorem whereThePairsAreConsistent : Obligations.WhereThePairsAreConsistent :=
  ⟨consistent_construct,
    fun _ _ _ _ => consistent_of_exec_writeOf_combined,
    fun _ _ _ _ => consistent_A_of_exec_init,
    fun _ _ _ _ hi => consistent_of_exec_next (.inl hi),
    fun _ _ _ _ _ => consistent_of_exec_writeOf_half,
    fun _ => consistent_of_reachable,
    fun _ _ _ _ => consistent_iff_of_exec_next,
    inconsistentB, reachable_inconsistentB, rfl, not_consistent_inconsistentB⟩

/-- Settles O37: a reset clears all pairs, and no command breaks a pair in `CONVENTIONAL` mode. -/
theorem conventionalStepKeepsThePairsConsistent : Obligations.ConventionalStepKeepsThePairsConsistent := by
  intro s t hm hs h
  refine ⟨?_, consistent_of_step_next hm hs h⟩
  rw [stepKeepsTheConfiguration s t h, hm]

/-- Settles O26: a command is at most one named write, whose frame is known, and the reset clears every element. -/
theorem commandsWriteOnlyWhatTheTableNames : Obligations.CommandsWriteOnlyWhatTheTableNames := by
  constructor
  · intro i s t h
    exact ⟨fun _ hq => reg_of_exec_next h hq, flag_of_exec_next h, byteAt_of_exec_next h, config_of_exec_next h,
      inputs_of_exec_next h, drawn_of_exec_next h⟩
  · intro s t inp l hin hrst h
    have htake := takeInput_of_inputs hin
    obtain ⟨-, rfl⟩ | ⟨hrun, -⟩ := step_next_cases h
    · refine ⟨State.reg_applyReset _, State.flag_applyReset _, fun a ha => ?_⟩
      rw [State.byteAt_applyReset, config_takeInput, if_pos ha]
    · rw [htake, hrst] at hrun
      cases hrun

/-! Two states side by side (rules R30, R44). -/

/-- The two states hold the same values in the pair. -/
def AgreeOnPair (p : Pair) (s s' : State) : Prop :=
  (∀ k, s.half p k = s'.half p k) ∧ s.combined p = s'.combined p

/-- A half write of a pair reads nothing but that pair, in either mode. -/
theorem agreeOnPair_halfWrite {s s' : State} (hc : s.config = s'.config) {p : Pair} (hp : AgreeOnPair p s s')
    (q : Pair) (k : HalfKind) (v : Word) : AgreeOnPair p (halfWrite q k v s) (halfWrite q k v s') := by
  obtain ⟨hhalf, hcombined⟩ := hp
  cases hm : s.config.halfWriteMode with
  | reference =>
    rw [halfWrite_of_reference hm, halfWrite_of_reference (hc ▸ hm)]
    by_cases hq : q = p
    · subst hq
      simp [AgreeOnPair, halfWriteReference, hhalf]
    · simp [AgreeOnPair, halfWriteReference, hq, hhalf, hcombined]
  | conventional =>
    rw [halfWrite_of_conventional hm, halfWrite_of_conventional (hc ▸ hm)]
    by_cases hq : q = p
    · subst hq
      simp [AgreeOnPair, halfWriteConventional, hhalf]
    · simp [AgreeOnPair, halfWriteConventional, hq, hhalf, hcombined]

theorem agreeOnPair_setRegister {s s' : State} (hc : s.config = s'.config) {p : Pair} (hp : AgreeOnPair p s s')
    (n : Option RegName) (v : Word) : AgreeOnPair p (setRegister n v s) (setRegister n v s') := by
  rcases n with _ | ⟨q, k⟩ | q | r
  · exact hp
  · exact agreeOnPair_halfWrite hc hp q k v
  · obtain ⟨hhalf, hcombined⟩ := hp
    simp [AgreeOnPair, setRegister, combinedWrite, hhalf, hcombined]
  · simpa [AgreeOnPair, setRegister, indexWrite] using hp

theorem index_setRegister_congr {s s' : State} {r : IndexReg} (hr : s.index r = s'.index r) (n : Option RegName)
    (v : Word) : (setRegister n v s).index r = (setRegister n v s').index r := by
  rcases n with _ | ⟨q, k⟩ | q | j
  · exact hr
  · obtain ⟨b, w, e⟩ := halfWrite_shape q k v s
    obtain ⟨b', w', e'⟩ := halfWrite_shape q k v s'
    simp [setRegister, e, e', hr]
  · simp [setRegister, combinedWrite, hr]
  · simp [setRegister, indexWrite, hr]

/-- On two states with the same parameters a command does nothing to both, or makes the same named write of both. -/
theorem exec_next_pair {i : Instr} {s s' t t' : State} (hc : s.config = s'.config) (h : exec i s = .next t)
    (h' : exec i s' = .next t') : ∃ n v, t = setRegister n v s ∧ t' = setRegister n v s' := by
  obtain hnop | ⟨r, v, rfl⟩ | ⟨sel, v, rfl⟩ := instr_cases i
  · rw [hnop] at h h'
    cases h
    cases h'
    exact ⟨none, 0, rfl, rfl⟩
  · exact ⟨some r, v, eq_setRegister_of_exec_writeOf h, eq_setRegister_of_exec_writeOf h'⟩
  · rw [exec_init] at h h'
    cases h
    cases h'
    exact ⟨_, _, rfl, by rw [hc]⟩

/-- Settles O28: both runs make the same named write, which reads the written pair alone. -/
theorem pairsAndIndexRegistersAreIsolated : Obligations.PairsAndIndexRegistersAreIsolated := by
  intro i s s' t t' hc h h'
  obtain ⟨n, v, rfl, rfl⟩ := exec_next_pair hc h h'
  exact ⟨fun _ hhalf hcombined => agreeOnPair_setRegister hc ⟨hhalf, hcombined⟩ n v,
    fun _ hr => index_setRegister_congr hr n v⟩

/-! Flags and bytes along a run (rules R24, R38, R39). -/

/-- A run over listed inputs goes on from the state its first step answers. -/
theorem runInputs_cons_of_step {s t : State} {inp : Input} {l : List Input}
    (h : step { s with inputs := inp :: l } = .next t) (ht : t.inputs = l) :
    runInputs (inp :: l) s = runInputs l t := by
  subst ht
  exact run_succ_of_next h

/-- The first command of a run without a reset on it. -/
theorem runInputs_cons_of_exec {s t : State} {inp : Input} {l : List Input} (hrst : inp.rst = false)
    (h : exec (decode inp.cmd) { s with inputs := l } = .next t) : runInputs (inp :: l) s = runInputs l t := by
  refine runInputs_cons_of_step ?_ (inputs_of_exec_next h)
  rw [step_cons, hrst]
  exact h

theorem flag_and_byteAt_of_runInputs {l : List Input} {s t : State} (hl : ∀ inp ∈ l, inp.rst = false)
    (h : runInputs l s = .next t) : (∀ f, t.flag f = s.flag f) ∧ ∀ a, t.byteAt a = s.byteAt a := by
  induction l generalizing s with
  | nil =>
    rw [runInputs_nil] at h
    cases h
    exact ⟨State.flag_withInputs s [], fun _ => rfl⟩
  | cons inp l ih =>
    rw [List.forall_mem_cons] at hl
    obtain ⟨hrst, hl⟩ := hl
    obtain ⟨u, hu⟩ := exists_exec_next (decode inp.cmd) { s with inputs := l }
    rw [runInputs_cons_of_exec hrst hu] at h
    obtain ⟨hflag, hbyte⟩ := ih hl h
    constructor
    · intro f
      rw [hflag, flag_of_exec_next hu, State.flag_withInputs]
    · intro a
      rw [hbyte, byteAt_of_exec_next hu]
      rfl

/-- Settles O29: no command changes a flag or a byte, so no run without a reset does, by induction on its inputs. -/
theorem noCommandSequenceChangesAFlag : Obligations.NoCommandSequenceChangesAFlag :=
  ⟨fun _ _ _ f h => flag_of_exec_next h f, fun _ _ _ => flag_and_byteAt_of_runInputs⟩

theorem memoryZero_iff (s : State) :
    s.MemoryZero ↔ ∀ a, s.byteAt a = if a < s.config.memBytes then some 0 else none := by
  constructor
  · intro hz a
    have hread : a < s.config.memBytes → s.mem.read a = 0 := fun ha => hz a _ (if_pos ha)
    simp only [State.byteAt]
    split
    · rw [hread ‹_›]
    · rfl
  · intro hb a b h
    rw [hb] at h
    split at h
    · exact (Option.some.inj h).symm
    · cases h

/-- Settles O38: a reset clears flags and bytes, and a command changes none. -/
theorem stepKeepsFlagsClearAndMemoryZero : Obligations.StepKeepsFlagsClearAndMemoryZero := by
  intro s t hf hz h
  obtain ⟨-, rfl⟩ | ⟨-, hexec⟩ := step_next_cases h
  · exact ⟨State.flag_applyReset _, (memoryZero_iff _).2 (State.byteAt_applyReset _)⟩
  · constructor
    · intro f
      rw [flag_of_exec_next hexec, flag_takeInput, hf]
    · intro a b hb
      rw [byteAt_of_exec_next hexec, byteAt_takeInput] at hb
      exact hz a b hb

theorem flagsClear_and_memoryZero_of_reachable {s : State} (h : Reachable s) : s.FlagsClear ∧ s.MemoryZero := by
  induction h with
  | construct c l =>
    refine ⟨fun f => ?_, (memoryZero_iff _).2 (State.byteAt_construct c)⟩
    rw [State.flag_withInputs, State.flag_construct]
  | step _ hst ih =>
    obtain ⟨hf, hz⟩ := ih
    exact stepKeepsFlagsClearAndMemoryZero _ _ hf hz hst

/-- Settles O39: the invariant of O38 holds at construction, and so of every reachable state. -/
theorem reachableFlagsAreClearAndMemoryIsZero : Obligations.ReachableFlagsAreClearAndMemoryIsZero := by
  refine ⟨State.flag_construct, fun s h => ?_⟩
  obtain ⟨hf, hz⟩ := flagsClear_and_memoryZero_of_reachable h
  exact ⟨hf, (memoryZero_iff s).1 hz⟩

/-- Settles O31: each accessor of the construction state, and the definition of power-on. -/
theorem constructionStateIsAllZero : Obligations.ConstructionStateIsAllZero := by
  refine ⟨fun c => ⟨State.reg_construct c, State.flag_construct c, fun a ha => ?_⟩, rfl⟩
  rw [State.byteAt_construct, if_pos ha]

theorem memoryWf_construct (c : Config) : (State.construct c).MemoryWf := memoryWf_applyReset (State.construct c)

/-- Settles O42: every construction state meets the invariants, and `State.reset` is one of them. -/
theorem constructionStateMeetsTheInvariants : Obligations.ConstructionStateMeetsTheInvariants := by
  have hbase : ∀ c : Config, (State.construct c).FlagsClear ∧ (State.construct c).MemoryZero ∧
      (State.construct c).MemoryWf ∧ ∀ p, (State.construct c).Consistent p := fun c =>
    ⟨State.flag_construct c, (memoryZero_iff _).2 (State.byteAt_construct c), memoryWf_construct c,
      consistent_construct c⟩
  exact ⟨hbase, hbase Config.reference⟩

end Sys2Proof.Machine

/-! The memory family: the memory's form, and what a command reads (20_memory.md). -/

namespace Sys2Proof.Machine

/-! The form of the memory along a step (rule R37). -/

theorem memoryWf_takeInput {s : State} (h : s.MemoryWf) : (takeInput s).2.MemoryWf := by
  obtain ⟨l, d, e⟩ := takeInput_block s
  rw [e]
  exact h

/-- Settles O40: a reset empties the memory, and a command is a named write, which leaves the memory alone. -/
theorem stepKeepsTheMemoryWellFormed : Obligations.StepKeepsTheMemoryWellFormed := by
  intro s t hs h
  obtain ⟨-, rfl⟩ | ⟨-, hexec⟩ := step_next_cases h
  · exact memoryWf_applyReset _
  · obtain ⟨n, v, rfl, -⟩ := setRegister_of_exec_next hexec
    exact memoryWf_setRegister n v (memoryWf_takeInput hs)

/-! What a named write reads (rule R44). -/

/-- Two states that agree on every register, and on what is no register, are one state. -/
theorem State.eq_of_reg {s t : State} (hr : ∀ q, s.reg q = t.reg q) (hf : ∀ f, s.flag f = t.flag f)
    (hm : s.mem = t.mem) (hg : s.config = t.config) (hn : s.inputs = t.inputs) (hd : s.drawn = t.drawn) : s = t :=
  State.eq_of_accessors (fun p k => BitVec.eq_of_toNat_eq (hr (.half p k)))
    (fun p => BitVec.eq_of_toNat_eq (hr (.combined p))) (fun r => BitVec.eq_of_toNat_eq (hr (.index r))) hf hm hg hn hd

/-- The two values a half write stores depend on the parameters and the sibling half alone, in either mode. -/
theorem halfWrite_shape_congr {s s' : State} (hc : s.config = s'.config) {p : Pair} {k : HalfKind}
    (hsib : s.half p (sibling k) = s'.half p (sibling k)) (v : Word) :
    ∃ b w, halfWrite p k v s = (s.setHalf p k b).setCombined p w ∧
      halfWrite p k v s' = (s'.setHalf p k b).setCombined p w := by
  cases hm : s.config.halfWriteMode with
  | reference =>
    rw [halfWrite_of_reference hm, halfWrite_of_reference (hc ▸ hm)]
    exact ⟨_, _, rfl, by rw [halfWriteReference, hsib]⟩
  | conventional =>
    rw [halfWrite_of_conventional hm, halfWrite_of_conventional (hc ▸ hm)]
    cases k with
    | high =>
      have hlow : s.half p .low = s'.half p .low := hsib
      exact ⟨loByte v, concat (loByte v) (s'.half p .low), by rw [← hlow]; rfl, rfl⟩
    | low =>
      have hhigh : s.half p .high = s'.half p .high := hsib
      exact ⟨loByte v, concat (s'.half p .high) (loByte v), by rw [← hhigh]; rfl, rfl⟩

/-- What a named write stores depends on the parameters, and for a half write on the sibling half. -/
theorem reg_setRegister_congr {s s' : State} (hc : s.config = s'.config) {n : Option RegName}
    (hsib : ∀ p k, n = some (.half p k) → s.half p (sibling k) = s'.half p (sibling k)) (v : Word) {q : RegName}
    (hq : q ∈ touched n) : (setRegister n v s).reg q = (setRegister n v s').reg q := by
  rcases n with _ | ⟨p, k⟩ | p | r
  · cases hq
  · obtain ⟨b, w, e, e'⟩ := halfWrite_shape_congr hc (hsib p k rfl) v
    obtain rfl | rfl : q = .half p k ∨ q = .combined p := by simpa [touched] using hq
    · simp [setRegister, e, e', State.reg]
    · simp [setRegister, e, e', State.reg]
  · obtain rfl | rfl | rfl : q = .combined p ∨ q = .half p .high ∨ q = .half p .low := by simpa [touched] using hq
    · simp [setRegister, combinedWrite, State.reg]
    · simp [setRegister, combinedWrite, State.reg]
    · simp [setRegister, combinedWrite, State.reg]
  · obtain rfl : q = .index r := by simpa [touched] using hq
    simp [setRegister, indexWrite, State.reg]

/-- A half write keeps the sibling half, the one half it reads. -/
theorem half_sibling_setRegister_half (p : Pair) (k : HalfKind) (v : Word) (s : State) :
    (setRegister (some (.half p k)) v s).half p (sibling k) = s.half p (sibling k) :=
  BitVec.eq_of_toNat_eq
    (reg_setRegister_of_not_mem _ v s (.half p (sibling k)) (by simp [touched, sibling_ne]))

/-- A named write does not write what it reads, so it stores the same values again. -/
theorem setRegister_setRegister (n : Option RegName) (v : Word) (s : State) :
    setRegister n v (setRegister n v s) = setRegister n v s := by
  refine State.eq_of_reg (fun q => ?_) (flag_setRegister n v _) (mem_setRegister n v _) (config_setRegister n v _)
    (inputs_setRegister n v _) (drawn_setRegister n v _)
  by_cases hq : q ∈ touched n
  · refine reg_setRegister_congr (config_setRegister n v s) ?_ v hq
    rintro p k rfl
    exact half_sibling_setRegister_half p k v s
  · exact reg_setRegister_of_not_mem n v _ q hq

/-! What a command reads (rule R44). -/

theorem mayWrite_writeOf (r : RegName) (v : Word) : mayWrite (writeOf r v) = touched (some r) := by
  rcases r with ⟨p, k⟩ | p | r
  · cases p <;> cases k <;> rfl
  · cases p <;> rfl
  · cases r <;> rfl

/-- A command whose row of the table is not empty is the named write of the row's first register, or INIT. -/
theorem eq_writeOf_or_init_of_mayWrite {i : Instr} {r : RegName} {l : List RegName} (h : mayWrite i = r :: l) :
    i = writeOf r i.value ∨ ∃ sel v, i = .init sel v := by
  cases i with
  | init sel v => exact .inr ⟨sel, v, rfl⟩
  | _ => cases h <;> exact .inl rfl

theorem exec_exec {i : Instr} {s t : State} (h : exec i s = .next t) : exec i t = .next t := by
  obtain ⟨t', h'⟩ := exists_exec_next i t
  obtain ⟨n, v, rfl, rfl⟩ := exec_next_pair (config_of_exec_next h).symm h h'
  rwa [setRegister_setRegister] at h'

theorem reg_exec_congr {i : Instr} {s s' t t' : State} (hc : s.config = s'.config)
    (hsib : ∀ p k v, i = writeOf (.half p k) v → s.half p (sibling k) = s'.half p (sibling k))
    (h : exec i s = .next t) (h' : exec i s' = .next t') {q : RegName} (hq : q ∈ mayWrite i) :
    t.reg q = t'.reg q := by
  obtain ⟨r, l, hrow⟩ := List.exists_cons_of_ne_nil (List.ne_nil_of_mem hq)
  obtain hi | ⟨sel, v, rfl⟩ := eq_writeOf_or_init_of_mayWrite hrow
  · generalize i.value = v at hi
    subst hi
    rw [eq_setRegister_of_exec_writeOf h, eq_setRegister_of_exec_writeOf h']
    refine reg_setRegister_congr hc (fun p k e => ?_) v (mayWrite_writeOf r v ▸ hq)
    exact hsib p k v (by rw [Option.some.inj e])
  · rw [exec_init] at h h'
    cases h
    cases h'
    rw [hc]
    exact reg_setRegister_congr hc (fun p k e => by cases e) _ hq

/-- Settles O27: a command is at most one named write, which writes neither the parameters nor the sibling half it
reads. -/
theorem commandsAreIdempotent : Obligations.CommandsAreIdempotent :=
  ⟨fun _ _ _ => exec_exec, fun _ _ _ _ _ hc hsib h h' _ => reg_exec_congr hc hsib h h'⟩

end Sys2Proof.Machine

/-! The encoding family: fields, selectors, rows, ignored fields, the textual form and the outputs (30_encoding.md). -/

namespace Sys2Proof

open Sys2Proof.Machine

/-! Decode by the fields of a word (rules R53, R58). -/

/-- The bit `sel[4]` marks the codes 16 to 31 (rules R53, R54). -/
theorem getLsbD_four_iff : ∀ sel : Sel, sel.getLsbD 4 = true ↔ 16 ≤ sel.toNat := by decide

theorem regOfSel_of_unknown {sel : Sel} (h : sel.getLsbD 4 = true) : regOfSel sel = none := by
  obtain ⟨-, -, -, hbit⟩ | ⟨hnone, -⟩ := regOfSel_cases sel
  · rw [h] at hbit
    cases hbit
  · exact hnone

theorem decodeWrite_of_unknown {sel : Sel} (h : sel.getLsbD 4 = true) (v : Word) :
    decodeWrite sel v = .writeUnknown sel v := by
  simp only [decodeWrite, regOfSel_of_unknown h]

/-- A WRITE word is a named write at a name's code, and the unrecognised-name write at any other. -/
theorem decodeWrite_cases (sel : Sel) (v : Word) :
    (∃ r, selOfReg r = sel ∧ decodeWrite sel v = writeOf r v) ∨
    (sel.getLsbD 4 = true ∧ decodeWrite sel v = .writeUnknown sel v) := by
  obtain ⟨r, -, rfl, -⟩ | ⟨-, hbit⟩ := regOfSel_cases sel
  · exact .inl ⟨r, rfl, decodeWrite_selOfReg r v⟩
  · exact .inr ⟨hbit, decodeWrite_of_unknown hbit v⟩

theorem decode_idleWord (sel : Sel) (v : Word) : decode (cmdWord 0b00 sel v) = .idle sel v :=
  decode_cmdWord 0b00 sel v

theorem decode_writeWord (sel : Sel) (v : Word) : decode (cmdWord 0b01 sel v) = decodeWrite sel v :=
  decode_cmdWord 0b01 sel v

theorem decode_initWord (sel : Sel) (v : Word) : decode (cmdWord 0b10 sel v) = .init sel v :=
  decode_cmdWord 0b10 sel v

theorem decode_rsvdWord (sel : Sel) (v : Word) : decode (cmdWord 0b11 sel v) = .rsvd sel v :=
  decode_cmdWord 0b11 sel v

theorem decode_writeWord_selOfReg (r : RegName) (v : Word) : decode (cmdWord 0b01 (selOfReg r) v) = writeOf r v := by
  rw [decode_writeWord, decodeWrite_selOfReg]

theorem decode_writeWord_of_unknown {sel : Sel} (h : sel.getLsbD 4 = true) (v : Word) :
    decode (cmdWord 0b01 sel v) = .writeUnknown sel v := by
  rw [decode_writeWord, decodeWrite_of_unknown h]

/-! Decode by the number of a word (rule R59). -/

theorem decode_of_rsvd_range {w : Cmd} (h : 0x600000 ≤ w.toNat) : decode w = .rsvd (selField w) (valueField w) := by
  have hlt := w.isLt
  have hop : opOfBits (opField w) = .rsvd := opOfBits_opField_of_div (show _ = 3 by omega)
  simp only [decode, hop]

theorem decode_of_unknown_range {w : Cmd} (hlo : 0x300000 ≤ w.toNat) (hhi : w.toNat ≤ 0x3FFFFF) :
    decode w = .writeUnknown (selField w) (valueField w) := by
  have hop : opOfBits (opField w) = .write := opOfBits_opField_of_div (show _ = 1 by omega)
  have hsel : (selField w).getLsbD 4 = true := by
    rw [getLsbD_four_iff, selField_toNat]
    omega
  simp only [decode, hop, decodeWrite_of_unknown hsel]

/-! The encoder, and encode after decode (rules R51, R58). -/

/-- `cmd = op * 2^21 + sel * 2^16 + value` for the fields of an instruction (rule R51). -/
theorem encode_toNat (i : Instr) :
    (encode i).toNat = (opBits i.op).toNat * 2 ^ 21 + i.sel.toNat * 2 ^ 16 + i.value.toNat :=
  cmdWord_toNat _ _ _

theorem opField_encode (i : Instr) : opField (encode i) = opBits i.op := opField_cmdWord _ _ _

theorem encode_writeOf (r : RegName) (v : Word) : encode (writeOf r v) = cmdWord 0b01 (selOfReg r) v := by
  obtain ⟨hop, hsel, hvalue⟩ := writeOf_fields r v
  rw [encode, hop, hsel, hvalue]
  rfl

theorem encode_decodeWrite (sel : Sel) (v : Word) : encode (decodeWrite sel v) = cmdWord 0b01 sel v := by
  obtain ⟨r, rfl, h⟩ | ⟨-, h⟩ := decodeWrite_cases sel v
  · rw [h, encode_writeOf]
  · rw [h]
    rfl

theorem encode_decode (w : Cmd) : encode (decode w) = w := by
  have hw := cmdWord_fields w
  rw [← opBits_opOfBits (opField w)] at hw
  cases hop : opOfBits (opField w) with
  | write =>
    rw [hop] at hw
    simp only [decode, hop, encode_decodeWrite]
    exact hw
  | idle | init | rsvd =>
    rw [hop] at hw
    simp only [decode, hop]
    exact hw

theorem wellFormed_writeOf (r : RegName) (v : Word) : (writeOf r v).WellFormed := by
  rcases r with ⟨p, k⟩ | p | r
  · cases p <;> cases k <;> rfl
  · cases p <;> rfl
  · cases r <;> rfl

theorem wellFormed_decodeWrite (sel : Sel) (v : Word) : (decodeWrite sel v).WellFormed := by
  obtain ⟨r, -, h⟩ | ⟨hbit, h⟩ := decodeWrite_cases sel v
  · rw [h]
    exact wellFormed_writeOf r v
  · rw [h]
    exact hbit

theorem wellFormed_decode (w : Cmd) : (decode w).WellFormed := by
  cases hop : opOfBits (opField w) with
  | write =>
    simp only [decode, hop]
    exact wellFormed_decodeWrite _ _
  | idle | init | rsvd =>
    simp only [decode, hop]
    rfl

/-! The rows of opcode_table.json: every instruction agrees with its own, and no word agrees with two. -/

theorem rowMatch : ∀ i : Instr, Laws.RowMatch.Statement i
  | .idle sel v => Laws.RowMatch.idle sel v
  | .writeAH v => Laws.RowMatch.writeAH v
  | .writeAL v => Laws.RowMatch.writeAL v
  | .writeBH v => Laws.RowMatch.writeBH v
  | .writeBL v => Laws.RowMatch.writeBL v
  | .writeCH v => Laws.RowMatch.writeCH v
  | .writeCL v => Laws.RowMatch.writeCL v
  | .writeDH v => Laws.RowMatch.writeDH v
  | .writeDL v => Laws.RowMatch.writeDL v
  | .writeAX v => Laws.RowMatch.writeAX v
  | .writeBX v => Laws.RowMatch.writeBX v
  | .writeCX v => Laws.RowMatch.writeCX v
  | .writeDX v => Laws.RowMatch.writeDX v
  | .writeSP v => Laws.RowMatch.writeSP v
  | .writeBP v => Laws.RowMatch.writeBP v
  | .writeDI v => Laws.RowMatch.writeDI v
  | .writeSI v => Laws.RowMatch.writeSI v
  | .writeUnknown sel v => Laws.RowMatch.writeUnknown sel v
  | .init sel v => Laws.RowMatch.init sel v
  | .rsvd sel v => Laws.RowMatch.rsvd sel v

/-- The row of the instruction a word decodes to agrees with the word. -/
theorem row_of_decode (w : Cmd) :
    ∃ row, opcodeTable[(decode w).row]? = some row ∧ w &&& row.mask = row.pattern := by
  have h := rowMatch (decode w) (wellFormed_decode w)
  rwa [encode_decode] at h

/-- Two rows that one word agrees with have the same pattern under both masks. -/
theorem pattern_and_mask_comm {w : Cmd} {a b : TableRow} (ha : w &&& a.mask = a.pattern)
    (hb : w &&& b.mask = b.pattern) : a.pattern &&& b.mask = b.pattern &&& a.mask := by
  rw [← ha, ← hb, BitVec.and_assoc, BitVec.and_assoc, BitVec.and_comm a.mask]

/-- Every two rows of the table differ in a bit that both fix. -/
theorem opcodeTable_disjoint :
    opcodeTable.Pairwise (fun a b => a.pattern &&& b.mask ≠ b.pattern &&& a.mask) := by decide

/-- A word agrees with at most one row. -/
theorem row_unique {w : Cmd} {j k : Nat} {a b : TableRow} (hj : opcodeTable[j]? = some a)
    (hk : opcodeTable[k]? = some b) (ha : w &&& a.mask = a.pattern) (hb : w &&& b.mask = b.pattern) : k = j := by
  obtain ⟨hjlt, rfl⟩ := List.getElem?_eq_some_iff.1 hj
  obtain ⟨hklt, rfl⟩ := List.getElem?_eq_some_iff.1 hk
  have hdisjoint := List.pairwise_iff_getElem.1 opcodeTable_disjoint
  obtain h | h | h := Nat.lt_trichotomy k j
  · exact absurd (pattern_and_mask_comm hb ha) (hdisjoint k j hklt hjlt h)
  · exact h
  · exact absurd (pattern_and_mask_comm ha hb) (hdisjoint j k hjlt hklt h)

/-! The bits of a selector (rule R54). -/

/-- The bits of a half-register's code: `00`, the pair, and which half. -/
theorem selOfReg_half_bits (p : Pair) (k : HalfKind) :
    (selOfReg (.half p k)).extractLsb' 3 2 = 0b00 ∧
    [Pair.A, .B, .C, .D][((selOfReg (.half p k)).extractLsb' 1 2).toNat]? = some p ∧
    k = if (selOfReg (.half p k)).getLsbD 0 then .low else .high := by
  cases p <;> cases k <;> decide

/-- The bits of a combined register's code: `010` and the pair. -/
theorem selOfReg_combined_bits (p : Pair) :
    (selOfReg (.combined p)).extractLsb' 2 3 = 0b010 ∧
    [Pair.A, .B, .C, .D][((selOfReg (.combined p)).extractLsb' 0 2).toNat]? = some p := by
  cases p <;> decide

/-- The bits of an address/index register's code: `011` and the register. -/
theorem selOfReg_index_bits (r : IndexReg) :
    (selOfReg (.index r)).extractLsb' 2 3 = 0b011 ∧
    [IndexReg.SP, .BP, .DI, .SI][((selOfReg (.index r)).extractLsb' 0 2).toNat]? = some r := by
  cases r <;> decide

/-- The bit patterns of the half-registers and of the two word policies exclude each other and `sel[4] = 1`. -/
theorem policy_bits_exclusive : ∀ sel : Sel,
    (sel.extractLsb' 3 2 = 0b00 →
      sel.getLsbD 4 = false ∧ sel.extractLsb' 2 3 ≠ 0b010 ∧ sel.extractLsb' 2 3 ≠ 0b011) ∧
    (sel.extractLsb' 2 3 = 0b010 ∨ sel.extractLsb' 2 3 = 0b011 → sel.getLsbD 4 = false) := by
  decide

/-- A selector with `sel[4] = 0` is a name's code. -/
theorem exists_selOfReg_eq {sel : Sel} (h : sel.getLsbD 4 = false) : ∃ r, selOfReg r = sel := by
  obtain ⟨r, -, hr, -⟩ | ⟨-, hbit⟩ := regOfSel_cases sel
  · exact ⟨r, hr⟩
  · rw [h] at hbit
    cases hbit

theorem exists_half_of_bits {sel : Sel} (h : sel.extractLsb' 3 2 = 0b00) : ∃ p k, selOfReg (.half p k) = sel := by
  obtain ⟨hbit, hcombined, hindex⟩ := (policy_bits_exclusive sel).1 h
  obtain ⟨r, rfl⟩ := exists_selOfReg_eq hbit
  cases r with
  | half p k => exact ⟨p, k, rfl⟩
  | combined p => exact absurd (selOfReg_combined_bits p).1 hcombined
  | index r => exact absurd (selOfReg_index_bits r).1 hindex

theorem exists_combined_of_bits {sel : Sel} (h : sel.extractLsb' 2 3 = 0b010) : ∃ p, selOfReg (.combined p) = sel := by
  obtain ⟨r, rfl⟩ := exists_selOfReg_eq ((policy_bits_exclusive sel).2 (.inl h))
  cases r with
  | half p k =>
    obtain ⟨-, hne, -⟩ := (policy_bits_exclusive _).1 (selOfReg_half_bits p k).1
    exact absurd h hne
  | combined p => exact ⟨p, rfl⟩
  | index r =>
    rw [(selOfReg_index_bits r).1] at h
    cases h

theorem exists_index_of_bits {sel : Sel} (h : sel.extractLsb' 2 3 = 0b011) : ∃ r, selOfReg (.index r) = sel := by
  obtain ⟨r, rfl⟩ := exists_selOfReg_eq ((policy_bits_exclusive sel).2 (.inr h))
  cases r with
  | half p k =>
    obtain ⟨-, -, hne⟩ := (policy_bits_exclusive _).1 (selOfReg_half_bits p k).1
    exact absurd h hne
  | combined p =>
    rw [(selOfReg_combined_bits p).1] at h
    cases h
  | index r => exact ⟨r, rfl⟩

end Sys2Proof

namespace Sys2Proof.Machine

/-! Settled from the fields and the rows. -/

/-- Settles O8: the formula of a word by its fields, at the fields of the instruction. -/
theorem commandWordIsOpSelValue : Obligations.CommandWordIsOpSelValue := encode_toNat

/-- Settles O9: the cases of decode by the fields of a word; a word is the encoding of the instruction it decodes to,
so it agrees with that instruction's row, and every two rows differ in a bit that both fix. -/
theorem everyWordDecodesToExactlyOneRow : Obligations.EveryWordDecodesToExactlyOneRow := by
  refine ⟨fun sel v => ⟨decode_idleWord sel v, decode_initWord sel v, decode_rsvdWord sel v,
      fun h => decode_writeWord_of_unknown h v⟩,
    decode_writeWord_selOfReg, fun w => ⟨_, _, _, (cmdWord_fields w).symm⟩, fun w => ?_,
    fun w => exists_exec_next (decode w)⟩
  obtain ⟨row, hrow, hmatch⟩ := row_of_decode w
  exact ⟨row, hrow, hmatch, fun _ _ hrow' hmatch' => row_unique hrow hrow' hmatch hmatch'⟩

/-- Settles O11: each code of the list is the code of its name, and the codes from 16 up have `sel[4] = 1`. -/
theorem selectorCodesFollowTheNameList : Obligations.SelectorCodesFollowTheNameList := by
  intro v
  have named : ∀ r, decode (cmdWord 0b01 (selOfReg r) v) = writeOf r v := fun r => decode_writeWord_selOfReg r v
  exact ⟨named (.half .A .high), named (.half .A .low), named (.half .B .high), named (.half .B .low),
    named (.half .C .high), named (.half .C .low), named (.half .D .high), named (.half .D .low),
    named (.combined .A), named (.combined .B), named (.combined .C), named (.combined .D),
    named (.index .SP), named (.index .BP), named (.index .DI), named (.index .SI),
    fun sel h => decode_writeWord_of_unknown ((getLsbD_four_iff sel).2 h) v⟩

/-- Settles O12: a selector with the bits of a policy is the code of a register of that policy, whose bits are known. -/
theorem selectorBitsGiveThePolicy : Obligations.SelectorBitsGiveThePolicy := by
  refine fun sel => ⟨regOfSel_of_unknown, fun h => ?_, fun h => ?_, fun h => ?_⟩
  · obtain ⟨p, k, rfl⟩ := exists_half_of_bits h
    exact ⟨p, k, regOfSel_selOfReg _, (selOfReg_half_bits p k).2⟩
  · obtain ⟨p, rfl⟩ := exists_combined_of_bits h
    exact ⟨p, regOfSel_selOfReg _, (selOfReg_combined_bits p).2⟩
  · obtain ⟨r, rfl⟩ := exists_index_of_bits h
    exact ⟨r, regOfSel_selOfReg _, (selOfReg_index_bits r).2⟩

/-! What a command ignores (rules R57, R59, R62). -/

/-- A half write in `REFERENCE` mode reads the high byte of its value alone (rule R65). -/
theorem halfWriteReference_congr {v v' : Word} (h : v.toNat / 256 = v'.toNat / 256) (p : Pair) (k : HalfKind)
    (s : State) : halfWriteReference p k v s = halfWriteReference p k v' s := by
  have hhi : hiByte v = hiByte v' := BitVec.eq_of_toNat_eq (by rw [hiByte_toNat, hiByte_toNat, h])
  simp only [halfWriteReference, hhi]

/-- A half write in `CONVENTIONAL` mode reads the low byte of its value alone (rule R74). -/
theorem halfWriteConventional_congr {v v' : Word} (h : v.toNat % 256 = v'.toNat % 256) (p : Pair) (k : HalfKind)
    (s : State) : halfWriteConventional p k v s = halfWriteConventional p k v' s := by
  have hlo : loByte v = loByte v' := BitVec.eq_of_toNat_eq (by rw [loByte_toNat, loByte_toNat, h])
  simp only [halfWriteConventional, hlo]

theorem exec_writeOf_half (p : Pair) (k : HalfKind) (v : Word) (s : State) :
    exec (writeOf (.half p k) v) s = .next (halfWrite p k v s) := exec_writeOf (.half p k) v s

theorem exec_writeUnknown (sel : Sel) (v : Word) (s : State) : exec (.writeUnknown sel v) s = .next s := rfl

theorem exec_rsvd (sel : Sel) (v : Word) (s : State) : exec (.rsvd sel v) s = .next s := rfl

theorem exec_idle (sel : Sel) (v : Word) (s : State) : exec (.idle sel v) s = .next s := rfl

/-- The words of the four canonical spellings (rule R57). -/
theorem encode_canonical_words : encode (.idle 0 0) = 0x000000 ∧ encode (.init 0 0) = 0x400000 ∧
    encode (.rsvd 0 0) = 0x600000 ∧ encode (.writeUnknown 31 0) = 0x3F0000 := by decide

/-- Settles O13: no meaning reads the ignored fields of its command, and a half write reads one byte of its value. -/
theorem ignoredFieldsDoNotMatter : Obligations.IgnoredFieldsDoNotMatter := by
  refine ⟨fun _ _ _ _ _ => ⟨rfl, rfl, rfl, rfl⟩, fun p k v v' s hm h => ?_, fun p k v v' s hm h => ?_,
    fun _ _ => encode_canonical_words⟩
  · rw [exec_writeOf_half, exec_writeOf_half, halfWrite_of_reference hm, halfWrite_of_reference hm,
      halfWriteReference_congr h]
  · rw [exec_writeOf_half, exec_writeOf_half, halfWrite_of_conventional hm, halfWrite_of_conventional hm,
      halfWriteConventional_congr h]

/-- Settles O14: the words of the two ranges decode to RSVD and to the unrecognised-name write, which do nothing. -/
theorem reservedEncodingsChangeNothing : Obligations.ReservedEncodingsChangeNothing := by
  refine ⟨fun w s h => ?_, fun w s hlo hhi => ?_, fun sel v s => ?_⟩
  · rw [decode_of_rsvd_range h, exec_rsvd]
  · rw [decode_of_unknown_range hlo hhi, exec_writeUnknown]
  · rw [exec_rsvd, exec_idle]

/-- Settles O24: INIT makes the named write of AX, and the two words differ in `op`. -/
theorem initEqualsTheNamedWriteOfAX : Obligations.InitEqualsTheNamedWriteOfAX := by
  intro sel v s
  refine ⟨(exec_init sel v s).trans (exec_writeOf (.combined .A) _ s).symm, fun h => ?_⟩
  have hop := congrArg opField h
  rw [opField_encode, opField_encode] at hop
  exact absurd hop (show opBits .init ≠ opBits .write by decide)

/-! The textual form (rule R61, decision D22). -/

theorem selectorOfName_regSpelling (r : RegName) : selectorOfName (regSpelling r) = selOfReg r := by
  rcases r with ⟨p, k⟩ | p | r
  · cases p <;> cases k <;> rfl
  · cases p <;> rfl
  · cases r <;> rfl

theorem selectorOfName_of_ne_regSpelling {name : String} (h : ∀ r, name ≠ regSpelling r) :
    selectorOfName name = 31 := by
  have hnone : allRegNames.find? (fun r => regSpelling r == name) = none :=
    List.find?_eq_none.2 fun r _ => by simpa using (h r).symm
  simp only [selectorOfName, hnone]

/-- The word of a WRITE with a selector, as a number (rule R61). -/
theorem writeWord_toNat (sel : Sel) (v : Word) :
    (cmdWord 0b01 sel v).toNat = 0x200000 + sel.toNat * 0x10000 + v.toNat := cmdWord_toNat 0b01 sel v

theorem cmd_write_regSpelling (r : RegName) (v : Word) :
    (TextCommand.write (regSpelling r) v).input.cmd = cmdWord 0b01 (selOfReg r) v := by
  rw [TextCommand.input, selectorOfName_regSpelling]

theorem cmd_write_of_ne_regSpelling {name : String} (h : ∀ r, name ≠ regSpelling r) (v : Word) :
    (TextCommand.write name v).input.cmd = cmdWord 0b01 31 v := by
  rw [TextCommand.input, selectorOfName_of_ne_regSpelling h]

/-- Settles O15: the selector of each spelling is its name's code, of any other string 31, and a WRITE line's word is
that of op = 01 with the selector. -/
theorem textFormGivesTheSpecWords : Obligations.TextFormGivesTheSpecWords := by
  refine ⟨fun r v => ⟨rfl, ?_, ?_⟩, fun code v _ => ⟨rfl, writeWord_toNat code v⟩, fun name v h => ?_,
    rfl, rfl, rfl, rfl⟩
  · rw [cmd_write_regSpelling, writeWord_toNat]
  · rw [cmd_write_regSpelling, decode_writeWord_selOfReg]
  · rw [cmd_write_of_ne_regSpelling h, decode_writeWord_of_unknown (by decide)]

/-! The outputs (rules R63, R113). -/

/-- Two states agree on every register exactly when they agree on the registers of each policy. -/
theorem State.reg_eq_iff (s t : State) : (∀ q, s.reg q = t.reg q) ↔
    (∀ p k, s.half p k = t.half p k) ∧ (∀ p, s.combined p = t.combined p) ∧ ∀ r, s.index r = t.index r := by
  constructor
  · intro h
    exact ⟨fun p k => BitVec.eq_of_toNat_eq (h (.half p k)), fun p => BitVec.eq_of_toNat_eq (h (.combined p)),
      fun r => BitVec.eq_of_toNat_eq (h (.index r))⟩
  · rintro ⟨hhalf, hcombined, hindex⟩ q
    cases q with
    | half p k => exact congrArg BitVec.toNat (hhalf p k)
    | combined p => exact congrArg BitVec.toNat (hcombined p)
    | index r => exact congrArg BitVec.toNat (hindex r)

theorem State.outputs_eq_iff (s t : State) :
    s.outputs = t.outputs ↔ (∀ q, s.reg q = t.reg q) ∧ ∀ f, s.flag f = t.flag f := by
  rw [State.reg_eq_iff]
  constructor
  · intro h
    refine ⟨⟨?_, ?_, ?_⟩, ?_⟩
    · rintro (_ | _ | _ | _) (_ | _)
      exacts [congrArg Outputs.ah_o h, congrArg Outputs.al_o h, congrArg Outputs.bh_o h, congrArg Outputs.bl_o h,
        congrArg Outputs.ch_o h, congrArg Outputs.cl_o h, congrArg Outputs.dh_o h, congrArg Outputs.dl_o h]
    · rintro (_ | _ | _ | _)
      exacts [congrArg Outputs.ax_o h, congrArg Outputs.bx_o h, congrArg Outputs.cx_o h, congrArg Outputs.dx_o h]
    · rintro (_ | _ | _ | _)
      exacts [congrArg Outputs.sp_o h, congrArg Outputs.bp_o h, congrArg Outputs.di_o h, congrArg Outputs.si_o h]
    · rintro (_ | _ | _ | _ | _ | _ | _ | _ | _)
      exacts [congrArg Outputs.tf_o h, congrArg Outputs.df_o h, congrArg Outputs.if_o h, congrArg Outputs.of_o h,
        congrArg Outputs.sf_o h, congrArg Outputs.zf_o h, congrArg Outputs.af_o h, congrArg Outputs.pf_o h,
        congrArg Outputs.cf_o h]
  · rintro ⟨⟨hhalf, hcombined, hindex⟩, hflag⟩
    rw [State.outputs, State.outputs, Outputs.mk.injEq]
    exact ⟨hhalf .A .high, hhalf .A .low, hhalf .B .high, hhalf .B .low, hhalf .C .high, hhalf .C .low,
      hhalf .D .high, hhalf .D .low, hcombined .A, hcombined .B, hcombined .C, hcombined .D, hindex .SP, hindex .BP,
      hindex .DI, hindex .SI, hflag .TF, hflag .DF, hflag .IF, hflag .OF, hflag .SF, hflag .ZF, hflag .AF, hflag .PF,
      hflag .CF⟩

/-- Settles O30: each output is its element by definition, and the outputs list every register and flag. -/
theorem outputsShowTheStoredState : Obligations.OutputsShowTheStoredState :=
  ⟨fun _ => ⟨⟨rfl, rfl, rfl, rfl, rfl, rfl, rfl, rfl⟩, ⟨rfl, rfl, rfl, rfl⟩, ⟨rfl, rfl, rfl, rfl⟩,
      rfl, rfl, rfl, rfl, rfl, rfl, rfl, rfl, rfl⟩,
    fun _ _ => rfl, State.outputs_eq_iff⟩

end Sys2Proof.Machine

/-! The half-register writes (40_half_register_writes.md). -/

namespace Sys2Proof.Machine

/-- The table's base word of a register's named write plus the value decodes to that write (rules R51, R53, R58). -/
theorem decode_ofNat_of_selOfReg {n : Nat} (r : RegName) (hn : n = 0x200000 + (selOfReg r).toNat * 0x10000)
    (v : Word) : decode (BitVec.ofNat 23 (n + v.toNat)) = writeOf r v := by
  have hword : BitVec.ofNat 23 (n + v.toNat) = cmdWord 0b01 (selOfReg r) v := by
    rw [hn, ← writeWord_toNat, BitVec.ofNat_toNat, BitVec.setWidth_eq]
  rw [hword, decode_writeWord_selOfReg]

theorem concat_eq_ofNat (h l : Byte) : concat h l = BitVec.ofNat 16 (h.toNat * 256 + l.toNat) := by
  rw [← concat_toNat, BitVec.ofNat_toNat, BitVec.setWidth_eq]

/-- The aliasing relation of a pair, as numbers (rule R17). -/
theorem consistent_iff_toNat (s : State) (p : Pair) :
    s.Consistent p ↔ (s.combined p).toNat = (s.half p .high).toNat * 256 + (s.half p .low).toNat := by
  rw [← concat_toNat, BitVec.toNat_inj]

/-! The updated pair in `REFERENCE` mode (rule R65). -/

theorem half_halfWriteReference_toNat (p : Pair) (k : HalfKind) (v : Word) (s : State) :
    ((halfWriteReference p k v s).half p k).toNat = v.toNat / 256 := by
  simp [halfWriteReference, hiByte_toNat]

theorem half_sibling_halfWriteReference (p : Pair) (k : HalfKind) (v : Word) (s : State) :
    (halfWriteReference p k v s).half p (sibling k) = s.half p (sibling k) := by
  simp [halfWriteReference, (sibling_ne k).symm]

/-- The stored sum is exact: two bytes scaled so never reach `2^16`. -/
theorem combined_halfWriteReference_toNat (p : Pair) (k : HalfKind) (v : Word) (s : State) :
    ((halfWriteReference p k v s).combined p).toNat = v.toNat / 256 * 16 + (s.half p (sibling k)).toNat := by
  simp [halfWriteReference, scaledSum_toNat, hiByte_toNat]

theorem combined_halfWriteReference_le (p : Pair) (k : HalfKind) (v : Word) (s : State) :
    ((halfWriteReference p k v s).combined p).toNat ≤ 4335 := by
  rw [combined_halfWriteReference_toNat]
  have hv := v.isLt
  have hsib := (s.half p (sibling k)).isLt
  omega

/-- `h * 16 + l = h * 256 + l` only for `h = 0`. -/
theorem consistent_halfWriteReference_high_iff (p : Pair) (v : Word) (s : State) :
    (halfWriteReference p .high v s).Consistent p ↔ v.toNat / 256 = 0 := by
  have hlow : (halfWriteReference p .high v s).half p .low = s.half p .low :=
    half_sibling_halfWriteReference p .high v s
  rw [consistent_iff_toNat, combined_halfWriteReference_toNat, half_halfWriteReference_toNat, hlow, sibling]
  omega

/-- `l * 16 + h = h * 256 + l` only for `l = 17 * h`. -/
theorem consistent_halfWriteReference_low_iff (p : Pair) (v : Word) (s : State) :
    (halfWriteReference p .low v s).Consistent p ↔ v.toNat / 256 = 17 * (s.half p .high).toNat := by
  have hhigh : (halfWriteReference p .low v s).half p .high = s.half p .high :=
    half_sibling_halfWriteReference p .low v s
  rw [consistent_iff_toNat, combined_halfWriteReference_toNat, half_halfWriteReference_toNat, hhigh, sibling]
  omega

/-- Clearing the low byte of a value keeps its high byte. -/
theorem ofNat_clearLow_div (v : Word) : (BitVec.ofNat 16 (v.toNat / 256 * 256)).toNat / 256 = v.toNat / 256 := by
  have hv := v.isLt
  rw [BitVec.toNat_ofNat]
  omega

/-! The meaning of a half write, by the mode. -/

theorem exec_writeOf_half_of_reference {s : State} (hm : s.config.halfWriteMode = .reference) (p : Pair)
    (k : HalfKind) (v : Word) : exec (writeOf (.half p k) v) s = .next (halfWriteReference p k v s) := by
  rw [exec_writeOf_half, halfWrite_of_reference hm]

theorem exec_writeOf_half_of_conventional {s : State} (hm : s.config.halfWriteMode = .conventional) (p : Pair)
    (k : HalfKind) (v : Word) : exec (writeOf (.half p k) v) s = .next (halfWriteConventional p k v s) := by
  rw [exec_writeOf_half, halfWrite_of_conventional hm]

/-- The two updates of a half write in `REFERENCE` mode, in the terms of rules R66 to R73. -/
theorem exec_writeOf_half_eq_updates_of_reference {s : State} (hm : s.config.halfWriteMode = .reference) (p : Pair)
    (k : HalfKind) (v : Word) :
    exec (writeOf (.half p k) v) s = .next ((s.setHalf p k (v.extractLsb' 8 8)).setCombined p
      (BitVec.ofNat 16 (v.toNat / 256 * 16 + (s.half p (sibling k)).toNat))) := by
  rw [exec_writeOf_half_of_reference hm, halfWriteReference, scaledSum, hiByte_toNat, hiByte]

/-- The two updates of a write of a high half in `CONVENTIONAL` mode, in the terms of rule R74. -/
theorem exec_writeOf_high_eq_updates_of_conventional {s : State} (hm : s.config.halfWriteMode = .conventional)
    (p : Pair) (v : Word) :
    exec (writeOf (.half p .high) v) s = .next ((s.setHalf p .high (v.extractLsb' 0 8)).setCombined p
      (BitVec.ofNat 16 (v.toNat % 256 * 256 + (s.half p .low).toNat))) := by
  rw [exec_writeOf_half_of_conventional hm, ← loByte_toNat, ← concat_eq_ofNat]
  rfl

/-- The two updates of a write of a low half in `CONVENTIONAL` mode, in the terms of rule R74. -/
theorem exec_writeOf_low_eq_updates_of_conventional {s : State} (hm : s.config.halfWriteMode = .conventional)
    (p : Pair) (v : Word) :
    exec (writeOf (.half p .low) v) s = .next ((s.setHalf p .low (v.extractLsb' 0 8)).setCombined p
      (BitVec.ofNat 16 ((s.half p .high).toNat * 256 + v.toNat % 256))) := by
  rw [exec_writeOf_half_of_conventional hm, ← loByte_toNat, ← concat_eq_ofNat]
  rfl

/-- Settles O17: the two updated registers by their values, and the rest by the frame of every command; the sum is
exact, so its remainder is the sum itself. -/
theorem referenceHalfWritePolicy : Obligations.ReferenceHalfWritePolicy := by
  intro p k v s hm
  have hexec := exec_writeOf_half_of_reference hm p k v
  refine ⟨_, hexec, half_halfWriteReference_toNat p k v s, ?_, fun q hhalf hcombined => ?_, flag_of_exec_next hexec,
    byteAt_of_exec_next hexec, config_of_exec_next hexec⟩
  · rw [← combined_halfWriteReference_toNat, Nat.mod_eq_of_lt (BitVec.isLt _)]
  · refine reg_of_exec_next hexec ?_
    simp [mayWrite_writeOf, touched, hhalf, hcombined]

/-- Settles O18: the exact sum and its bound, the two cases of consistency, the idempotence of every command, and that
a half write reads the high byte of its value alone. -/
theorem referenceHalfWriteConsequences : Obligations.ReferenceHalfWriteConsequences := by
  intro p k v s hm
  have hexec := exec_writeOf_half_of_reference hm p k v
  refine ⟨_, hexec, combined_halfWriteReference_toNat p k v s, combined_halfWriteReference_le p k v s, ?_,
    exec_exec hexec, ?_⟩
  · cases k with
    | high => exact consistent_halfWriteReference_high_iff p v s
    | low => exact consistent_halfWriteReference_low_iff p v s
  · rw [exec_writeOf_half_of_reference hm, halfWriteReference_congr (ofNat_clearLow_div v)]

/-- Settles O19: the two updates of each half write, and the consistency of every half write in `CONVENTIONAL` mode. -/
theorem halfWritesInConventionalMode : Obligations.HalfWritesInConventionalMode := by
  refine ⟨fun s v hm => ?_, fun _ _ _ _ _ => consistent_of_exec_writeOf_half⟩
  have high := fun p => exec_writeOf_high_eq_updates_of_conventional hm p v
  have low := fun p => exec_writeOf_low_eq_updates_of_conventional hm p v
  exact ⟨high .A, low .A, high .B, low .B, high .C, low .C, high .D, low .D⟩

/-- Settles O16: the word of each half write by its selector, and its two updates. -/
theorem halfWritesInReferenceMode : Obligations.HalfWritesInReferenceMode := by
  intro s v hm
  have word := fun n p k (hn : n = 0x200000 + (selOfReg (.half p k)).toNat * 0x10000) =>
    decode_ofNat_of_selOfReg (.half p k) hn v
  have result := fun p k => exec_writeOf_half_eq_updates_of_reference hm p k v
  exact ⟨⟨word _ .A .high rfl, result .A .high⟩, ⟨word _ .A .low rfl, result .A .low⟩,
    ⟨word _ .B .high rfl, result .B .high⟩, ⟨word _ .B .low rfl, result .B .low⟩,
    ⟨word _ .C .high rfl, result .C .high⟩, ⟨word _ .C .low rfl, result .C .low⟩,
    ⟨word _ .D .high rfl, result .D .high⟩, ⟨word _ .D .low rfl, result .D .low⟩⟩

end Sys2Proof.Machine

/-! The combined-register writes (41_combined_register_writes.md). -/

namespace Sys2Proof.Machine

/-- The three updates of a combined write, in the terms of rules R75 to R79. It reads no mode. -/
theorem exec_writeOf_combined_eq_updates (p : Pair) (v : Word) (s : State) :
    exec (writeOf (.combined p) v) s = .next
      (((s.setCombined p v).setHalf p .high (v.extractLsb' 8 8)).setHalf p .low (v.extractLsb' 0 8)) := by
  rw [exec_writeOf, setRegister, combinedWrite, hiByte, loByte]

/-- Settles O20: the word of each combined write by its selector, its three updates, and the consistency of the pair
after every combined write. -/
theorem combinedWrites : Obligations.CombinedWrites := by
  refine ⟨fun s v => ?_, fun _ _ _ _ => consistent_of_exec_writeOf_combined⟩
  have word := fun n p (hn : n = 0x200000 + (selOfReg (.combined p)).toNat * 0x10000) =>
    decode_ofNat_of_selOfReg (.combined p) hn v
  have result := fun p => exec_writeOf_combined_eq_updates p v s
  exact ⟨⟨word _ .A rfl, result .A⟩, ⟨word _ .B rfl, result .B⟩, ⟨word _ .C rfl, result .C⟩,
    ⟨word _ .D rfl, result .D⟩⟩

end Sys2Proof.Machine

/-! The address/index-register writes (42_index_register_writes.md). -/

namespace Sys2Proof.Machine

/-- The one update of an address/index write (rule R80). It reads no mode. -/
theorem exec_writeOf_index_eq_update (r : IndexReg) (v : Word) (s : State) :
    exec (writeOf (.index r) v) s = .next (s.setIndex r v) := by
  rw [exec_writeOf, setRegister, indexWrite]

/-- Settles O21: the word of each address/index write by its selector, and its one update. -/
theorem indexWrites : Obligations.IndexWrites := by
  intro s v
  have word := fun n r (hn : n = 0x200000 + (selOfReg (.index r)).toNat * 0x10000) =>
    decode_ofNat_of_selOfReg (.index r) hn v
  have result := fun r => exec_writeOf_index_eq_update r v s
  exact ⟨⟨word _ .SP rfl, result .SP⟩, ⟨word _ .BP rfl, result .BP⟩, ⟨word _ .DI rfl, result .DI⟩,
    ⟨word _ .SI rfl, result .SI⟩⟩

end Sys2Proof.Machine

/-! The control commands (43_control_commands.md). -/

namespace Sys2Proof.Machine

/-! Decode by the number of a word (rules R85, R88). -/

theorem decode_of_idle_range {w : Cmd} (h : w.toNat ≤ 0x1FFFFF) : decode w = .idle (selField w) (valueField w) := by
  have hop : opOfBits (opField w) = .idle := opOfBits_opField_of_div (show _ = 0 by omega)
  simp only [decode, hop]

theorem decode_of_init_range {w : Cmd} (hlo : 0x400000 ≤ w.toNat) (hhi : w.toNat ≤ 0x5FFFFF) :
    decode w = .init (selField w) (valueField w) := by
  have hop : opOfBits (opField w) = .init := opOfBits_opField_of_div (show _ = 2 by omega)
  simp only [decode, hop]

/-- Settles O22: the three meanings write nothing, and each range fixes the fields that select its command. -/
theorem idleReservedAndUnknownWritesChangeNothing : Obligations.IdleReservedAndUnknownWritesChangeNothing :=
  ⟨fun sel v s => ⟨exec_idle sel v s, exec_rsvd sel v s, exec_writeUnknown sel v s⟩,
    fun _ h => ⟨_, _, decode_of_idle_range h⟩,
    fun _ hlo hhi => ⟨_, _, decode_of_unknown_range hlo hhi⟩,
    fun _ h => ⟨_, _, decode_of_rsvd_range h⟩⟩

/-- The one named write of INIT, register by register. It reads no mode (rule R88). -/
theorem exec_init_eq_updates (sel : Sel) (v : Word) (s : State) :
    exec (.init sel v) s = .next { s with
      AX := s.config.initAxValue
      AH := s.config.initAxValue.extractLsb' 8 8
      AL := s.config.initAxValue.extractLsb' 0 8 } := by
  rw [exec_init, setRegister, combinedWrite, hiByte, loByte]
  rfl

/-- Settles O23: the three updates of INIT, at the instance's value and at 302, and the range of op = 10. -/
theorem initWritesOnlyPairA : Obligations.InitWritesOnlyPairA := by
  refine ⟨fun sel v s => ⟨exec_init_eq_updates sel v s, fun h => ?_⟩,
    fun _ hlo hhi => ⟨_, _, decode_of_init_range hlo hhi⟩⟩
  rw [exec_init_eq_updates, h]
  rfl

end Sys2Proof.Machine

/-! Exceptions and privilege (60_exceptions.md). -/

namespace Sys2Proof.Machine

/-- Every edge answers a next state, whatever its input: a reset does, and so does every command (rules R91, R106). -/
theorem exists_step_next (s : State) : ∃ t, step s = .next t := by
  unfold step
  split
  · exact ⟨_, rfl⟩
  · exact exists_exec_next _ _

theorem hiByte_concat (h l : Byte) : hiByte (concat h l) = h := by
  have hl := l.isLt
  apply BitVec.eq_of_toNat_eq
  rw [hiByte_toNat, concat_toNat]
  omega

theorem loByte_concat (h l : Byte) : loByte (concat h l) = l := by
  have hl := l.isLt
  apply BitVec.eq_of_toNat_eq
  rw [loByte_toNat, concat_toNat]
  omega

/-- A value with the byte in both its halves gives a half register that byte in either mode: the one mode takes the
high byte and the other the low byte (rules R65, R74). -/
theorem half_halfWrite_concat_self (p : Pair) (k : HalfKind) (b : Byte) (s : State) :
    (halfWrite p k (concat b b) s).half p k = b := by
  cases hm : s.config.halfWriteMode with
  | reference => simp [halfWrite_of_reference hm, halfWriteReference, hiByte_concat]
  | conventional => simp [halfWrite_of_conventional hm, halfWriteConventional, loByte_concat]

theorem combined_combinedWrite (p : Pair) (w : Word) (s : State) : (combinedWrite p w s).combined p = w := by
  simp [combinedWrite]

theorem index_indexWrite (r : IndexReg) (w : Word) (s : State) : (indexWrite r w s).index r = w := by
  simp [indexWrite]

/-- Settles O25: every command and every edge answers a next state, and each register's named write stores its value,
for a half the byte doubled, so that the value serves both modes. -/
theorem everyCommandIsAcceptedInEveryState : Obligations.EveryCommandIsAcceptedInEveryState :=
  ⟨exists_exec_next, exists_step_next,
    fun p k b s => ⟨concat b b, _, exec_writeOf_half p k (concat b b) s, half_halfWrite_concat_self p k b s⟩,
    fun p w s => ⟨w, _, exec_writeOf (.combined p) w s, combined_combinedWrite p w s⟩,
    fun r w s => ⟨w, _, exec_writeOf (.index r) w s, index_indexWrite r w s⟩⟩

end Sys2Proof.Machine

/-! Reset and hazards: one edge, and runs over listed inputs (70_reset_and_hazards.md). -/

namespace Sys2Proof.Machine

/-! One edge (rules R106, R111, R112). -/

theorem State.withInputs_eq_self {s : State} {l : List Input} (h : s.inputs = l) : { s with inputs := l } = s := by
  subst h
  rfl

theorem State.outputs_applyReset (s : State) : (applyReset s).outputs = (State.construct s.config).outputs := rfl

/-- The step of a state that lists an input. -/
theorem step_of_inputs {s : State} {inp : Input} {l : List Input} (h : s.inputs = inp :: l) :
    step s =
      if inp.rst then .next (applyReset { s with inputs := l }) else exec (decode inp.cmd) { s with inputs := l } := by
  simp only [step, takeInput_of_inputs h]

theorem step_of_rst {s : State} {inp : Input} {l : List Input} (h : s.inputs = inp :: l) (hrst : inp.rst = true) :
    step s = .next (applyReset { s with inputs := l }) := by
  rw [step_of_inputs h, if_pos hrst]

theorem step_of_command {s : State} {inp : Input} {l : List Input} (h : s.inputs = inp :: l)
    (hrst : inp.rst = false) : step s = exec (decode inp.cmd) { s with inputs := l } := by
  rw [step_of_inputs h, hrst]
  rfl

/-- With no input listed, the edge takes the free input of the counter as if it were listed. -/
theorem takeInput_of_no_inputs {s : State} (h : s.inputs = []) :
    takeInput s = takeInput { s with
      inputs := [{ rst := Config.freeRst s.drawn, cmd := Config.freeCmd s.drawn }], drawn := s.drawn + 1 } := by
  simp only [takeInput, h]

/-- Settles O2: the reset and every command leave `inputs` and `drawn` as taking the input left them. -/
theorem stepTakesOneListedInput : Obligations.StepTakesOneListedInput := by
  intro s t inp l hin h
  obtain ⟨-, rfl⟩ | ⟨-, hexec⟩ := step_next_cases h
  · simp [takeInput_of_inputs hin]
  · rw [inputs_of_exec_next hexec, drawn_of_exec_next hexec, takeInput_of_inputs hin]
    exact ⟨rfl, rfl⟩

/-- Settles O1: the two branches of a step with a listed input, and what a reset shows. -/
theorem stepResetsOrRunsTheDecodedCommand : Obligations.StepResetsOrRunsTheDecodedCommand := by
  intro s inp l hin
  refine ⟨fun hrst => ⟨_, step_of_rst hin hrst, State.outputs_applyReset _, fun a => ?_, State.config_applyReset _⟩,
    step_of_command hin⟩
  rw [State.byteAt_applyReset, State.byteAt_construct]

/-- Settles O3: the two states give the edge the same input and leave the same state without it. -/
theorem stepWithNoListedInputTakesAFreeInput : Obligations.StepWithNoListedInputTakesAFreeInput := by
  intro s h
  rw [step, step, takeInput_of_no_inputs h]

/-! A run, edge by edge. -/

/-- What a state lists already plays no part in a run over given inputs. -/
theorem runInputs_withInputs (l m : List Input) (s : State) : runInputs l { s with inputs := m } = runInputs l s := rfl

theorem runInputs_cons_of_rst {inp : Input} (hrst : inp.rst = true) (l : List Input) (s : State) :
    runInputs (inp :: l) s = runInputs l (applyReset s) := by
  have hstep : step { s with inputs := inp :: l } = .next (applyReset { s with inputs := l }) := step_of_rst rfl hrst
  rw [runInputs_cons_of_step hstep rfl, applyReset_withInputs, runInputs_withInputs]

/-- The command of the first edge runs on the state the run starts from, whatever follows it. -/
theorem runInputs_cons_of_exec_next {inp : Input} (hrst : inp.rst = false) {s t : State}
    (h : exec (decode inp.cmd) s = .next t) (l : List Input) : runInputs (inp :: l) s = runInputs l t := by
  rw [runInputs_cons_of_exec hrst (exec_withInputs h l), runInputs_withInputs]

/-- The first edge of a run leads to one state, whatever follows it. -/
theorem exists_runInputs_cons (inp : Input) (s : State) : ∃ t, ∀ l, runInputs (inp :: l) s = runInputs l t := by
  cases hrst : inp.rst with
  | true => exact ⟨applyReset s, fun l => runInputs_cons_of_rst hrst l s⟩
  | false =>
    obtain ⟨t, ht⟩ := exists_exec_next (decode inp.cmd) s
    exact ⟨t, runInputs_cons_of_exec_next hrst ht⟩

/-- A run of one command is the command, on a state that lists nothing more. -/
theorem runInputs_command {inp : Input} (hrst : inp.rst = false) {s : State} (hs : s.inputs = []) :
    runInputs [inp] s = exec (decode inp.cmd) s := by
  obtain ⟨t, ht⟩ := exists_exec_next (decode inp.cmd) s
  rw [runInputs_cons_of_exec_next hrst ht, runInputs_nil, ht,
    State.withInputs_eq_self ((inputs_of_exec_next ht).trans hs)]

/-- Settles O35: every edge leads to a state, so every run does, by induction on its inputs. -/
theorem everyRunEndsInAState : Obligations.EveryRunEndsInAState := by
  intro l
  induction l with
  | nil => exact fun s => ⟨_, runInputs_nil s⟩
  | cons inp l ih =>
    intro s
    obtain ⟨t, ht⟩ := exists_runInputs_cons inp s
    rw [SafeRun, ht]
    exact ih t

/-! Runs compose, and IDLE cycles drop out (rule R114). -/

theorem runInputs_append {l : List Input} (m : List Input) {s t : State} (h : runInputs l s = .next t) :
    runInputs (l ++ m) s = runInputs m t := by
  induction l generalizing s with
  | nil =>
    rw [runInputs_nil] at h
    cases h
    rfl
  | cons inp l ih =>
    obtain ⟨u, hu⟩ := exists_runInputs_cons inp s
    rw [hu] at h
    rw [List.cons_append, hu, ih h]

theorem isIdle_iff (inp : Input) : inp.isIdle = true ↔ inp.rst = false ∧ opOfBits (opField inp.cmd) = .idle := by
  simp [Input.isIdle]

theorem exec_of_isIdle {inp : Input} (h : inp.isIdle = true) (s : State) : exec (decode inp.cmd) s = .next s := by
  obtain ⟨-, hop⟩ := (isIdle_iff inp).1 h
  simp only [decode, hop, exec_idle]

theorem runInputs_cons_of_isIdle {inp : Input} (h : inp.isIdle = true) (l : List Input) (s : State) :
    runInputs (inp :: l) s = runInputs l s :=
  runInputs_cons_of_exec_next ((isIdle_iff inp).1 h).1 (exec_of_isIdle h s) l

theorem runInputs_filter_not_isIdle (l : List Input) (s : State) :
    runInputs l s = runInputs (l.filter (fun inp => !inp.isIdle)) s := by
  induction l generalizing s with
  | nil => rfl
  | cons inp l ih =>
    cases hidle : inp.isIdle with
    | true => rw [runInputs_cons_of_isIdle hidle, List.filter_cons_of_neg (by simp [hidle]), ih]
    | false =>
      obtain ⟨t, ht⟩ := exists_runInputs_cons inp s
      rw [List.filter_cons_of_pos (by simp [hidle]), ht, ht, ih]

/-- Settles O34: each clause is by induction on the inputs, an edge at a time. -/
theorem idleCyclesDoNotMatter : Obligations.IdleCyclesDoNotMatter :=
  ⟨fun _ m _ _ => runInputs_append m, runInputs_filter_not_isIdle⟩

/-! Reset edges, and the first command after them (rules R109, R118). -/

theorem applyReset_applyReset (s : State) : applyReset (applyReset s) = applyReset s := rfl

/-- More reset edges after the first change nothing. -/
theorem runInputs_resets_applyReset {rs : List Input} (h : ∀ r ∈ rs, r.rst = true) (s : State) :
    runInputs rs (applyReset s) = .next { applyReset s with inputs := [] } := by
  induction rs with
  | nil => exact runInputs_nil _
  | cons r rs ih =>
    rw [List.forall_mem_cons] at h
    obtain ⟨hr, hrs⟩ := h
    rw [runInputs_cons_of_rst hr, applyReset_applyReset, ih hrs]

theorem runInputs_resets {rs : List Input} (hne : rs ≠ []) (h : ∀ r ∈ rs, r.rst = true) (s : State) :
    runInputs rs s = .next { applyReset s with inputs := [] } := by
  obtain ⟨r, rs, rfl⟩ := List.exists_cons_of_ne_nil hne
  rw [List.forall_mem_cons] at h
  obtain ⟨hr, hrs⟩ := h
  rw [runInputs_cons_of_rst hr, runInputs_resets_applyReset hrs]

/-- Settles O32: every non-empty run of reset edges ends in the state of one reset, and the run goes on from it. -/
theorem heldResetGivesConstruct : Obligations.HeldResetGivesConstruct := by
  intro rs s hne hrs
  have hreset := runInputs_resets hne hrs s
  refine ⟨_, hreset, State.outputs_applyReset s, State.byteAt_applyReset s, State.config_applyReset s,
    fun inp hrst => ?_⟩
  rw [runInputs_append [inp] hreset, runInputs_command hrst rfl]

theorem runInputs_init {s : State} (hs : s.inputs = []) :
    runInputs [{ rst := false, cmd := 0x400000 }] s = .next { s with
      AX := s.config.initAxValue
      AH := s.config.initAxValue.extractLsb' 8 8
      AL := s.config.initAxValue.extractLsb' 0 8 } := by
  rw [runInputs_command rfl hs, decode_of_init_range (by decide) (by decide), exec_init_eq_updates]

/-- Settles O33: INIT runs on the construction state, and on the state a reset edge leaves; the last clause is the
first one at the reference parameters. -/
theorem initAfterConstructionGivesBooted : Obligations.InitAfterConstructionGivesBooted := by
  refine ⟨fun c => runInputs_init rfl, fun s w => ?_, runInputs_init rfl⟩
  have hreset : runInputs [{ rst := true, cmd := w }] s = .next { applyReset s with inputs := [] } :=
    runInputs_resets (by simp) (by simp) s
  refine ⟨_, hreset, State.outputs_applyReset s, ?_⟩
  exact (runInputs_append [{ rst := false, cmd := 0x400000 }] hreset).trans (runInputs_init rfl)

end Sys2Proof.Machine

/-! Decode and encode are inverse, the words of the test vectors, and a presented table word (30_encoding.md). -/

namespace Sys2Proof

open Sys2Proof.Machine

/-- Only the unrecognised-name write needs the hypothesis: a selector with `sel[4] = 0` would decode to a named
write. -/
theorem decode_encode {i : Instr} (hw : i.WellFormed) : decode (encode i) = i := by
  rw [encode, decode_cmdWord, opOfBits_opBits]
  cases i with
  | writeUnknown sel v => exact decodeWrite_of_unknown hw v
  | idle | init | rsvd => rfl
  | writeAH | writeAL | writeBH | writeBL | writeCH | writeCL | writeDH | writeDL => rfl
  | writeAX | writeBX | writeCX | writeDX => rfl
  | writeSP | writeBP | writeDI | writeSI => rfl

theorem decodeNumber_of_lt {n : Nat} (h : n < 2 ^ 23) : decodeNumber n = .ok (decode (BitVec.ofNat 23 n)) :=
  if_pos h

theorem decodeTableWord_of_lt {nbits w : Nat} (hbits : w < 2 ^ nbits) (hport : w < 2 ^ 23) :
    decodeTableWord nbits w = some (decode (BitVec.ofNat 23 w)) := by
  simp only [decodeTableWord, Nat.mod_eq_of_lt hbits, decodeNumber_of_lt hport]

end Sys2Proof

namespace Sys2Proof.Machine

/-- The presented word runs on the state as it was before the host presented it. -/
theorem step_withFetchWord (s : State) (nbits w : Nat) :
    step (s.withFetchWord nbits w) = exec (decode (BitVec.ofNat 23 (w % 2 ^ nbits))) s := by
  have hin : (s.withFetchWord nbits w).inputs =
      { rst := false, cmd := BitVec.ofNat 23 (w % 2 ^ nbits) } :: s.inputs := rfl
  rw [step_of_command hin rfl]
  rfl

/-- Settles O6: the fields of an encoding are those of the instruction, and they give the instruction back. -/
theorem decodeOfEncodeIsTheInstruction : Obligations.DecodeOfEncodeIsTheInstruction := fun _ => decode_encode

/-- Settles O7: the form of a decoded instruction, and encode after decode. -/
theorem encodeOfDecodeIsTheWord : Obligations.EncodeOfDecodeIsTheWord := fun w =>
  ⟨wellFormed_decode w, encode_decode w⟩

/-- Settles O10: the row lemma of each constructor. -/
theorem encodingMatchesItsTableRow : Obligations.EncodingMatchesItsTableRow := rowMatch

/-- Settles O4: a table word that fits the command port is presented whole, and its step is that of the listed input. -/
theorem withFetchWordRunsTheTableWord : Obligations.WithFetchWordRunsTheTableWord := by
  intro s nbits w hbits hport
  refine ⟨_, decodeTableWord_of_lt hbits hport, ?_⟩
  rw [step_withFetchWord, Nat.mod_eq_of_lt hbits]

/-- Settles O5: each word is evaluated. -/
theorem specWordsDecodeToTheirCommands : Obligations.SpecWordsDecodeToTheirCommands := by
  unfold Obligations.SpecWordsDecodeToTheirCommands
  decide

end Sys2Proof.Machine
